-- ==== Sys2Proof/Word.lean ====
section
/-! DEFINITION. The words of the block: every value is an unsigned integer of a fixed width (spec 00 R9, 41 R106). -/

namespace Sys2Proof

/-- `u8` of the spec. -/
abbrev Byte := BitVec 8

/-- `u16` of the spec. -/
abbrev Half := BitVec 16

/-- `u32` of the spec: control registers, counters, response payloads. -/
abbrev Word := BitVec 32

/-- `u64` of the spec: a command word (R60). -/
abbrev Cmd := BitVec 64

end Sys2Proof
end

