-- ==== Sys2Proof/Config.lean ====
section
/-! DEFINITION. What an implementation fixes and the spec leaves open: the gamma table and the width of the transport's
error code (spec 00 R8). -/

namespace Sys2Proof

/-- What the spec states of the gamma table, and all it states (40 R90): it is monotone non-decreasing (R91) and three of
its entries are bounded (R92). -/
abbrev Config.GammaLegal (f : Byte → Half) : Prop :=
  (∀ i j : Byte, i < j → f i ≤ f j) ∧
  (0xFE80 ≤ f 255 ∧ f 255 ≤ 0xFFFF) ∧
  (0x2980 ≤ f 127 ∧ f 127 ≤ 0x2A7F) ∧
  (0x0280 ≤ f 43 ∧ f 43 ≤ 0x037F)

/-- FREE VALUE (assumption log 1): 256 unconstrained entries. -/
opaque Config.gammaFree : Byte → Half

/-- A table that meets R91 and R92, used only to make `Config.gamma` range over the legal tables and no others. -/
def Config.gammaStep (i : Byte) : Half :=
  if i ≤ 43 then 0x0280 else if i ≤ 127 then 0x2980 else 0xFE80

/-- The model argument `GAMMA` (00 R8, 40 R90; assumption log 1). As `Config.gammaFree` ranges over all tables, `Config.gamma`
ranges over exactly the tables that meet R91 and R92: nothing else can be proved of it. -/
def Config.gamma (i : Byte) : Half :=
  if Config.GammaLegal Config.gammaFree then Config.gammaFree i else Config.gammaStep i

/-- FREE VALUE (assumption log 2): `ERR_W` less one, any of 0 to 31. -/
opaque Config.errWFree : Fin 32

/-- `ERR_W`, the width of the transport's opaque error code: any value 1 to 32 (00 R8, 92 D4; assumption log 2). -/
def Config.errW : Nat := Config.errWFree.val + 1

end Sys2Proof
end

