-- ==== Sys2Proof/Syntax.lean ====
section
/-! DEFINITION. The instruction set: the fourteen commands of spec 30 R62, operands in the order of R76, with the field
widths of R65. -/

namespace Sys2Proof

/-- One constructor per row of spec/opcode_table.json. -/
inductive Instr where
  /-- `BEGIN` (44 R141). -/
  | beginFrame
  /-- `PIXDEV brt, red, grn, blu` (44 R142). -/
  | pixdev (brt red grn blu : Byte)
  /-- `PIXLIN16 brt, r16, g16, b16` (44 R143). -/
  | pixlin16 (brt : Byte) (r g b : Half)
  /-- `PIXPERC8 brt, r8, g8, b8` (44 R144). -/
  | pixperc8 (brt r g b : Byte)
  /-- `END` (44 R145). -/
  | endFrame
  /-- `CFGWR reg, val` (45 R171). -/
  | cfgwr (idx : BitVec 4) (val : Word)
  /-- `CFGRD reg` (45 R172). -/
  | cfgrd (idx : BitVec 4)
  /-- `GAMMA idx` (40 R94). -/
  | gamma (idx : Byte)
  /-- `SCALE val16, sc8` (41 R100). -/
  | scale (val : Half) (sc : Byte)
  /-- `MAP val16` (41 R103). -/
  | map (val : Half)
  /-- `BSHIFT8 src, dst, max` (42 R110). -/
  | bshift8 (src dst max : Byte)
  /-- `BSHIFT16 src, dst, max, steps` (42 R113). -/
  | bshift16 (src : Byte) (dst : Half) (max steps : Byte)
  /-- `ENCLIN16 brt, r16, g16, b16` (43 R121). -/
  | enclin16 (brt : Byte) (r g b : Half)
  /-- `ENCPERC8 brt, r8, g8, b8 [, cr, cg, cb]`, `cp` saying whether the correction is present (43 R122). -/
  | encperc8 (brt r g b : Byte) (cp : Bool) (cr cg cb : Byte)
deriving DecidableEq, Repr

end Sys2Proof
end

