-- ==== Sys2Proof/Machine/State.lean ====
section
/-! DEFINITION. The state of the block (spec 10 R10 to R29), of its ports (20 R45 to R48, 30 R64), and the machine after
reset (10 R29, 70 R200). Plain data throughout. -/

namespace Sys2Proof.Machine

/-- `seq.ST`, the frame sequencer's state (10 R13). -/
inductive SeqState where
  | idle
  | framing
  | ended
  | aborted
deriving DecidableEq, Repr

/-- A device-native pixel: three 8-bit channels and a 5-bit brightness (00 glossary, 10 R12). -/
structure DeviceColor where
  red : Byte
  grn : Byte
  blu : Byte
  brt : BitVec 5
deriving DecidableEq, Repr

/-- The seven working registers of the pixel encoder (10 R10) and its output latch `w.OUT` (R12). Between commands the spec
defines none of them (R11); see assumption log 3. -/
structure Work where
  acc : Byte
  br : Byte
  r16 : Half
  g16 : Half
  b16 : Half
  maxc : Half
  sh : Byte
  out : DeviceColor
deriving DecidableEq, Repr

/-- `FB`, the four bytes of the pixel frame being emitted, first byte presented first (10 R27(a)). -/
structure FrameBuf where
  b0 : Byte
  b1 : Byte
  b2 : Byte
  b3 : Byte
deriving DecidableEq, Repr

/-- The transport's answer to a beat (20 R46). `code` carries the opaque error code in its bits `ERR_W-1:0`; the block takes
no other bit of it (`errBits`; assumption log 2). -/
inductive Answer where
  /-- the byte counts as delivered -/
  | ok
  /-- a transport error -/
  | err (code : Word)
  /-- no answer, ever -/
  | silent
deriving DecidableEq, Repr

/-- One beat on `TX`: the byte, its segment-end marker, and the answer it drew (20 R45, R48). -/
structure Beat where
  byte : Byte
  last : Bool
  answer : Answer
deriving DecidableEq, Repr

/-- The response codes (30 R64); 6 to 15 are never produced and have no constructor. -/
inductive RespCode where
  | ok
  | xerr
  | proto
  | illegal
  | ovf
  | flushed
deriving DecidableEq, Repr

/-- One response: a code and a 32-bit payload (30 R64). -/
structure Response where
  code : RespCode
  payload : Word
deriving DecidableEq, Repr

/-- What the host does: offer a command word (20 R50, 30 R60) or assert reset (70 R200). -/
inductive HostEvent where
  | command (word : Cmd)
  | reset
deriving DecidableEq, Repr

/-- The block and its ports. -/
structure State where
  /-- `seq.ST` (10 R13) -/
  st : SeqState
  /-- `seq.N`, pixel frames completed in the current frame write (10 R13, R15); `PIX_COUNT` reads it (R24) -/
  n : Word
  /-- `CFG0` (10 R18) -/
  cfg0 : Word
  /-- `END_COUNT` (10 R19) -/
  endCount : Word
  /-- `LED_COUNT` (10 R20) -/
  ledCount : Word
  /-- `CORR` (10 R21) -/
  corr : Word
  /-- `STATUS.XERR`, sticky (10 R16, R22) -/
  xerr : Bool
  /-- `STATUS.PROTO`, sticky -/
  proto : Bool
  /-- `STATUS.ILL`, sticky -/
  ill : Bool
  /-- `STATUS.OVF`, sticky -/
  ovf : Bool
  /-- `ERR_CODE` (10 R23): the code in bits `ERR_W-1:0`, zero above -/
  errCode : Word
  /-- the working registers and the output latch (10 R10, R12) -/
  w : Work
  /-- `FB` (10 R27(a)) -/
  fb : FrameBuf
  /-- `BI`, the byte index within the segment being emitted (10 R27(b); assumption log 4) -/
  bi : Nat
  /-- `EC`, end-frame bytes still to emit (10 R27(c)) -/
  ec : Word
  /-- a command is in progress and the beat it presented last is unanswered (20 R46, 70 R214) -/
  waiting : Bool
  /-- address space `TX`: the beats presented, oldest first (20 R40, R48; assumption log 5) -/
  tx : List Beat
  /-- the responses issued, oldest first (20 R48; assumption log 5) -/
  responses : List Response
  /-- input: what the host will do, oldest first (assumption log 6) -/
  host : List HostEvent
  /-- input: what the transport will answer, oldest first; a beat beyond the list draws no answer (assumption log 6) -/
  answers : List Answer
deriving DecidableEq, Repr

/-- Why the model has no next state. -/
inductive Fault where
  /-- STUCK, not a failure of the block: a beat is unanswered for ever and the host does not assert reset, so the block has
  no step (20 R46, 70 R214, 93 X9; assumption log 8). Raised by `step` alone. Safe. -/
  | transportSilent
  /-- A pixel frame was to be built while `CFG0.CH_ORDER` holds 6 or 7, values that cannot occur (44 R148, 10 R18). Raised
  by the pixel commands, in states no run reaches (assumption log 10). Safe. -/
  | reservedChannelOrder
deriving DecidableEq, Repr

/-- Why an instruction has no meaning in the model. -/
inductive Refusal where
  /-- The instruction is not modelled. Raised by `exec`'s arm of such an instruction; no arm is of this kind. Safe. -/
  | notModelled (mnemonic : String)
deriving DecidableEq, Repr

/-- The working registers after reset: the spec leaves them unspecified (10 R29). DESIGN CHOICE: zero (assumption log 3). -/
def Work.reset : Work :=
  { acc := 0, br := 0, r16 := 0, g16 := 0, b16 := 0, maxc := 0, sh := 0, out := ⟨0, 0, 0, 0⟩ }

/-- The machine right after reset (10 R29, 70 R200). The ports' histories and inputs are empty (assumption logs 5, 6). -/
def State.reset : State :=
  { st := .idle
    n := 0
    cfg0 := 0x00000005
    endCount := 0
    ledCount := 0
    corr := 0x00FFFFFF
    xerr := false
    proto := false
    ill := false
    ovf := false
    errCode := 0
    w := Work.reset
    fb := ⟨0, 0, 0, 0⟩
    bi := 0
    ec := 0
    waiting := false
    tx := []
    responses := []
    host := []
    answers := [] }

end Sys2Proof.Machine
end

