-- ==== Sys2Proof/Machine/Flags.lean ====
section
/-! DEFINITION. The `STATUS` register and its four sticky flags (spec 10 R13, R16, R22). The block has no other flag. -/

namespace Sys2Proof.Machine

/-- The two-bit code of `seq.ST` in `STATUS` (10 R13). -/
def SeqState.code : SeqState → BitVec 2
  | .idle => 0
  | .framing => 1
  | .ended => 2
  | .aborted => 3

/-- `STATUS` as it reads (10 R22): `ST` in bits 1:0, `XERR` 2, `PROTO` 3, `ILL` 4, `OVF` 5, the rest zero. -/
def statusWord (s : State) : Word :=
  0#26 ++ BitVec.ofBool s.ovf ++ BitVec.ofBool s.ill ++ BitVec.ofBool s.proto ++ BitVec.ofBool s.xerr ++ s.st.code

/-- Set `STATUS.XERR`. -/
def setXerr (s : State) : State := { s with xerr := true }

/-- Set `STATUS.PROTO`. -/
def setProto (s : State) : State := { s with proto := true }

/-- Set `STATUS.ILL`. -/
def setIll (s : State) : State := { s with ill := true }

/-- Set `STATUS.OVF`. -/
def setOvf (s : State) : State := { s with ovf := true }

end Sys2Proof.Machine
end

