-- ==== Sys2Proof/Machine/Operands.lean ====
section
/-! DEFINITION. Operand forms: the fields of the control registers (spec 10 R18, R21), the packing of a DeviceColor (R12),
the channel order (30 R72), and the operand conditions the commands check (30 R74, 45 R171, R172). -/

namespace Sys2Proof.Machine

/-! ## `CFG0` and `CORR` -/

/-- `CFG0.CH_ORDER` (10 R18). -/
def chOrder (cfg0 : Word) : BitVec 3 := cfg0.extractLsb' 0 3

/-- `CFG0.END_POLICY` = `FIXED`; otherwise `DERIVED`. -/
def endFixed (cfg0 : Word) : Bool := cfg0.getLsbD 3

/-- `CFG0.END_POL`. -/
def endPol (cfg0 : Word) : Bool := cfg0.getLsbD 4

/-- `CFG0.CNT_SRC` = `SUPPLIED`; otherwise `OBSERVED`. -/
def cntSupplied (cfg0 : Word) : Bool := cfg0.getLsbD 5

/-- `CFG0.RESET_EN`. -/
def resetEn (cfg0 : Word) : Bool := cfg0.getLsbD 6

/-- `CFG0.CORR_EN`. -/
def corrEn (cfg0 : Word) : Bool := cfg0.getLsbD 7

/-- `CORR.CORR_R` (10 R21). -/
def corrR (corr : Word) : Byte := corr.extractLsb' 16 8

/-- `CORR.CORR_G`. -/
def corrG (corr : Word) : Byte := corr.extractLsb' 8 8

/-- `CORR.CORR_B`. -/
def corrB (corr : Word) : Byte := corr.extractLsb' 0 8

/-! ## The transport's error code -/

/-- An error code in 32 bits, `zext_32(e)` with `e` of `ERR_W` bits: every bit above `ERR_W-1` is zero (10 R23, 60 R183). -/
def errBits (code : Word) : Word := BitVec.ofNat 32 (code.toNat % 2 ^ Config.errW)

/-! ## Colours -/

/-- A correction present: one scale per channel (43 R122's `some(cr, cg, cb)`). -/
structure Correction where
  cr : Byte
  cg : Byte
  cb : Byte
deriving DecidableEq, Repr

/-- A DeviceColor in 32 bits: `zext_8(BRT) ++ RED ++ GRN ++ BLU` (10 R12). -/
def DeviceColor.pack (d : DeviceColor) : Word := d.brt.setWidth 8 ++ d.red ++ d.grn ++ d.blu

/-- Bytes 1, 2, 3 of a pixel frame under a channel order (30 R72, 44 R148); values 6 and 7 select nothing. -/
def channelBytes (order : BitVec 3) (red grn blu : Byte) : Option (Byte × Byte × Byte) :=
  match order.toNat with
  | 0 => some (red, grn, blu)
  | 1 => some (red, blu, grn)
  | 2 => some (grn, red, blu)
  | 3 => some (grn, blu, red)
  | 4 => some (blu, red, grn)
  | 5 => some (blu, grn, red)
  | _ => none

/-- Byte 0 of a pixel frame: `0xE0 | (BRT & 0x1F)` (30 R73). -/
def brightnessByte (brt : Byte) : Byte := 0xE0 ||| (brt &&& 0x1F)

/-- `FB` for a pixel (44 R148). -/
def pixelFrame (cfg0 : Word) (brt red grn blu : Byte) : Option FrameBuf :=
  match channelBytes (chOrder cfg0) red grn blu with
  | some (c1, c2, c3) => some ⟨brightnessByte brt, c1, c2, c3⟩
  | none => none

/-- The bytes of `FB` in the order they are presented (20 R43). -/
def FrameBuf.bytes (f : FrameBuf) : List Byte := [f.b0, f.b1, f.b2, f.b3]

/-- The bytes of a start frame and of a reset frame (30 R71). -/
def zeroFrame : List Byte := [0x00, 0x00, 0x00, 0x00]

/-! ## Operand conditions -/

/-- The checks at the head of `CFGWR` (45 R171; 30 R74 (e) to (h)): false where it raises `ILLEGAL`. -/
def cfgwrLegal (idx : BitVec 4) (val : Word) : Bool :=
  if 7 ≤ idx ∨ idx = 4 ∨ idx = 5 ∨ idx = 6 then false
  else if idx = 0 ∧ (val >>> 8 ≠ 0 ∨ chOrder val = 6 ∨ chOrder val = 7) then false
  else if idx = 3 ∧ val >>> 24 ≠ 0 then false
  else true

/-- `STEPS` is 1 or 2 (30 R74 (c), 42 R113). -/
def stepsLegal (steps : Byte) : Bool := steps = 1 ∨ steps = 2

/-- The correction fields are 0 where `CP` = 0 (30 R74 (d)). -/
def corrLegal (cp : Bool) (cr cg cb : Byte) : Bool := cp ∨ (cr = 0 ∧ cg = 0 ∧ cb = 0)

/-- The correction an `ENCPERC8` word carries (43 R122). -/
def wordCorrection (cp : Bool) (cr cg cb : Byte) : Option Correction :=
  if cp then some ⟨cr, cg, cb⟩ else none

/-- The correction `PIXPERC8` takes from the registers (44 R144). -/
def registerCorrection (s : State) : Option Correction :=
  if corrEn s.cfg0 then some ⟨corrR s.corr, corrG s.corr, corrB s.corr⟩ else none

end Sys2Proof.Machine
end

