-- ==== Sys2Proof/Machine/Units.lean ====
section
/-! DEFINITION. The arithmetic units U1 to U5: the gamma ROM (spec 20 R41), the scalers (41 R100, R103), the brightness
bitshifter (42 R110, R113) and the pixel encoder (43 R121, R122). -/

namespace Sys2Proof.Machine

/-! ## U1, U2, U3 -/

/-- `RomRead(i)` (20 R41). -/
def romRead (i : Byte) : Half := Config.gamma i

/-- `scale16by8(value, scale)` (41 R100); the product is exact. -/
def scale16by8 (value : Half) (scale : Byte) : Half :=
  if scale = 0 then 0 else BitVec.ofNat 16 ((value.toNat * (scale.toNat + 1)) >>> 8)

/-- `map16_to_8(value)` (41 R103); the sum is exact. -/
def map16to8 (value : Half) : Byte :=
  if 0xFF00 ≤ value then 0xFF else BitVec.ofNat 8 ((value.toNat + 128) >>> 8)

/-! ## U4 -/

/-- What `bshift8` returns: new source, new destination, shift count (42 R110). -/
structure Shift8 where
  src : Byte
  dst : Byte
  cnt : Byte
deriving DecidableEq, Repr

/-- The loop of R110; `left` is how many shifts `max` still allows, so the loop's `n < max` is `left ≠ 0`. -/
def bshift8Loop : Nat → Byte → Byte → Byte → Shift8
  | 0, src, dst, n => ⟨src, dst, n⟩
  | left + 1, src, dst, n =>
    if 1 < src ∧ dst.getLsbD 7 = false then bshift8Loop left (src >>> 1) (dst <<< 1) (n + 1)
    else ⟨src, dst, n⟩

/-- `bshift8(src, dst, max)` (42 R110). -/
def bshift8 (src dst max : Byte) : Shift8 :=
  if src = 0 ∨ dst = 0 then ⟨src, dst, 0⟩ else bshift8Loop max.toNat src dst 0

/-- What `bshift16` returns (42 R113). -/
structure Shift16 where
  src : Byte
  dst : Half
  cnt : Byte
deriving DecidableEq, Repr

/-- The overflow mask of R113: the top `steps` bits. -/
def ovfMask (steps : Byte) : Half := 0xFFFF#16 <<< (16 - steps.toNat)

/-- The loop of R113; `left` is how many shifts `max` still allows. -/
def bshift16Loop (steps : Byte) : Nat → Byte → Half → Byte → Shift16
  | 0, src, dst, n => ⟨src, dst, n⟩
  | left + 1, src, dst, n =>
    if src.getLsbD 0 = false ∧ dst &&& ovfMask steps = 0 then
      bshift16Loop steps left (src >>> 1) (dst <<< steps.toNat) (n + 1)
    else ⟨src, dst, n⟩

/-- `bshift16(src, dst, max, steps)` (42 R113); defined for `steps` 1 and 2, the only values a command reaches it with. -/
def bshift16 (src : Byte) (dst : Half) (max steps : Byte) : Shift16 :=
  if src = 0 ∨ dst = 0 then ⟨src, dst, 0⟩ else bshift16Loop steps max.toNat src dst 0

/-! ## U5 -/

/-- `max` of two unsigned values. -/
def umax (a b : Half) : Half := if a ≤ b then b else a

/-- `min(brightness, 31)` in five bits (43 R121 step 2): a saturation. -/
def satBrightness (brt : Byte) : BitVec 5 := if brt ≤ 31 then brt.setWidth 5 else 31

/-- Step 3 of R121: the accumulator is the source, the brightness the destination. -/
def encStep3 (brt : Byte) (w : Work) : Work :=
  let p := bshift8 16 brt 4
  { w with acc := p.src, br := p.dst }

/-- Step 4 of R121: the channels are shifted by the shift count, not by twice it. -/
def encStep4 (r g b : Half) (w : Work) : Work :=
  let m := umax r (umax g b)
  let p := bshift16 w.acc m 4 2
  { w with
    maxc := m, acc := p.src, sh := p.cnt
    r16 := r <<< p.cnt.toNat, g16 := g <<< p.cnt.toNat, b16 := b <<< p.cnt.toNat }

/-- Step 5 of R121. -/
def encStep5 (w : Work) : Work :=
  if w.br = 255 then w
  else { w with r16 := scale16by8 w.r16 w.br, g16 := scale16by8 w.g16 w.br, b16 := scale16by8 w.b16 w.br }

/-- Step 6 of R121. -/
def encStep6 (w : Work) : Work :=
  if 1 < w.acc then { w with acc := w.acc ||| (w.acc - 1) } else w

/-- Step 7 of R121: the result goes to the latch `w.OUT`. -/
def encStep7 (w : Work) : Work :=
  { w with out := ⟨map16to8 w.r16, map16to8 w.g16, map16to8 w.b16, w.acc.setWidth 5⟩ }

/-- `w.OUT <- enc_lin16(r, g, b, brightness)` (43 R121), the working registers being the algorithm's local values (R120). -/
def encLin16 (r g b : Half) (brt : Byte) (w : Work) : Work :=
  if brt = 0 then { w with out := ⟨0, 0, 0, 0⟩ }
  else if r = 0 ∧ g = 0 ∧ b = 0 then { w with out := ⟨0, 0, 0, satBrightness brt⟩ }
  else encStep7 (encStep6 (encStep5 (encStep4 r g b (encStep3 brt w))))

/-- One channel's colour correction (43 R122). -/
def correctChannel (x : Half) (c : Byte) : Half := if c = 255 then x else scale16by8 x c

/-- `w.OUT <- enc_perc8(r8, g8, b8, brightness, corr)` (43 R122); no ROM read when the brightness is 0. -/
def encPerc8 (r8 g8 b8 brt : Byte) (corr : Option Correction) (w : Work) : Work :=
  if brt = 0 then { w with out := ⟨0, 0, 0, 0⟩ }
  else
    match corr with
    | none => encLin16 (romRead r8) (romRead g8) (romRead b8) brt w
    | some c =>
      encLin16 (correctChannel (romRead r8) c.cr) (correctChannel (romRead g8) c.cg)
        (correctChannel (romRead b8) c.cb) brt w

end Sys2Proof.Machine
end

