-- ==== Sys2Proof/Machine/Ops.lean ====
section
/-! DEFINITION. The named operations every command is made of: the response (spec 30 R64), taking an exception (60 R183,
R185), admission (44 R146), the transport (20 R45 to R47), the pixel-frame builder and the end frame (44 R148), the
registers by index (10 R17 to R25), and reset (70 R200). -/

namespace Sys2Proof.Machine

/-! ## The response and the exceptions -/

/-- `respond(code, payload)`: complete the command (00 R9, 30 R64). -/
def respond (code : RespCode) (payload : Word) (s : State) : State :=
  { s with responses := s.responses ++ [⟨code, payload⟩] }

/-- The number of a response code (30 R64). -/
def RespCode.code : RespCode → BitVec 4
  | .ok => 0
  | .xerr => 1
  | .proto => 2
  | .illegal => 3
  | .ovf => 4
  | .flushed => 5

/-- What a command can be ended by (60 R181). -/
inductive Exn where
  /-- a transport error with its code (R183) -/
  | xerr (code : Word)
  /-- refused because of the sequencer state (R185) -/
  | proto
  /-- refused as no legal command (R185, 30 R74) -/
  | illegal
  /-- refused at the pixel counter's maximum (R185, R186) -/
  | ovf
  /-- discarded because its frame write was aborted (R185) -/
  | flushed
deriving DecidableEq, Repr

/-- TAKING AN EXCEPTION, `raise X(info)` (60 R183, R185). A transport error latches its code of `ERR_W` bits zero-extended,
overwriting the last one (10 R23), sets its flag and aborts the frame write, `seq.N` keeping its value; a refusal sets its flag and nothing else; a discarded command sets none. Each ends the
command with its response. There is no handler and no return: the next command is simply accepted (R183, R191). -/
def raise : Exn → State → State
  | .xerr e, s => respond .xerr (errBits e) { setXerr s with errCode := errBits e, st := .aborted }
  | .proto, s => respond .proto 0 (setProto s)
  | .illegal, s => respond .illegal 0 (setIll s)
  | .ovf, s => respond .ovf 0 (setOvf s)
  | .flushed, s => respond .flushed 0 s

/-- What `BEGIN` does after its start frame, in every state; out of `ABORTED` it is the only return (44 R141, 60 R191). -/
def enterFraming (s : State) : State := { s with st := .framing }

/-! ## Admission -/

/-- The rows of the admission table (44 R146). -/
inductive CmdGroup where
  | beginCmd
  | pixelCmd
  | endCmd
  | cfgwrCmd
  | otherCmd
deriving DecidableEq, Repr

/-- The entries of the admission table: `none` admits, an exception refuses or discards (44 R146). -/
def admission : CmdGroup → SeqState → Option Exn
  | .beginCmd, _ => none
  | .pixelCmd, .framing => none
  | .pixelCmd, .aborted => some .flushed
  | .pixelCmd, _ => some .proto
  | .endCmd, .framing => none
  | .endCmd, .aborted => some .flushed
  | .endCmd, _ => some .proto
  | .cfgwrCmd, .framing => some .proto
  | .cfgwrCmd, _ => none
  | .otherCmd, _ => none

/-- Stage 2 of R140: run `body` if the command is admitted, else end it with the table's entry. -/
def ifAdmitted (g : CmdGroup) (s : State) (body : State → Host.Outcome State Fault Refusal) :
    Host.Outcome State Fault Refusal :=
  match admission g s.st with
  | some x => .next (raise x s)
  | none => body s

/-- Stage 3 of R140: the counter check of a pixel command (44 R147). -/
def ifCountable (s : State) (body : State → Host.Outcome State Fault Refusal) : Host.Outcome State Fault Refusal :=
  if s.n = 0xFFFFFFFF then .next (raise .ovf s) else body s

/-! ## The transport -/

/-- How a run of beats leaves the command: it goes on, or it is over (ended by `XERR`, or waiting for ever). -/
inductive Flow where
  | go (s : State)
  | halt (s : State)
deriving DecidableEq, Repr

/-- The next line of pseudocode, if the command goes on. -/
def Flow.andThen (f : Flow) (k : State → Flow) : Flow :=
  match f with
  | .go s => k s
  | .halt s => .halt s

/-- The command's last lines, if it goes on. -/
def Flow.finish (f : Flow) (k : State → State) : State :=
  match f with
  | .go s => k s
  | .halt s => s

/-- Record the beat just presented, with the answer it drew, that answer used up. -/
def present (byte : Byte) (last : Bool) (a : Answer) (s : State) : State :=
  { s with tx := s.tx ++ [⟨byte, last, a⟩], answers := s.answers.tail }

/-- The answer the next beat draws; beyond the list the transport never answers (assumption log 6). -/
def nextAnswer (s : State) : Answer := s.answers.headD .silent

/-- `TxByte(b, last)` (20 R46): a beat is presented exactly once (R45). -/
def txByte (byte : Byte) (last : Bool) (s : State) : Flow :=
  match nextAnswer s with
  | .ok => .go (present byte last .ok s)
  | .err e => .halt (raise (.xerr e) (present byte last (.err (errBits e)) s))
  | .silent => .halt { present byte last .silent s with waiting := true }

/-- The beats of a segment from byte index `BI` on; `last` is true exactly on the final byte (20 R47). -/
def txBytes : List Byte → State → Flow
  | [], s => .go s
  | b :: bs, s => (txByte b bs.isEmpty s).andThen fun t => txBytes bs { t with bi := t.bi + 1 }

/-- `TxSeg(bytes)` (00 R9). -/
def txSeg (bytes : List Byte) (s : State) : Flow := txBytes bytes { s with bi := 0 }

/-- The loop of `END` (44 R145): while `EC` > 0, one byte, `last` when `EC` = 1, then `EC` - 1. -/
def endLoop (fill : Byte) : Nat → State → Flow
  | 0, s => .go s
  | k + 1, s => (txByte fill (k == 0) s).andThen fun t =>
      endLoop fill k { t with bi := t.bi + 1, ec := BitVec.ofNat 32 k }

/-- The end frame: one segment of `cnt` bytes (44 R145). -/
def txEnd (cnt : Word) (fill : Byte) (s : State) : Flow :=
  endLoop fill cnt.toNat { s with bi := 0, ec := cnt }

/-! ## The frame builders -/

/-- `EmitPixel(brt, red, grn, blu)` and the response (44 R148, R142). -/
def emitPixel (brt red grn blu : Byte) (s : State) : Host.Outcome State Fault Refusal :=
  match pixelFrame s.cfg0 brt red grn blu with
  | none => .fault .reservedChannelOrder
  | some f =>
    .next ((txSeg f.bytes { s with fb := f }).finish fun t => respond .ok 0 { t with n := t.n + 1 })

/-- `EmitPixel` of the latch `w.OUT` (44 R143, R144). -/
def emitLatch (s : State) : Host.Outcome State Fault Refusal :=
  emitPixel (s.w.out.brt.setWidth 8) s.w.out.red s.w.out.grn s.w.out.blu s

/-- `ceil(leds / 16)` as 41 R106 and 44 R148 compute it. -/
def ceil16 (leds : Word) : Word := (leds >>> 4) + if leds.extractLsb' 0 4 = 0#4 then 0 else 1

/-- `EndFrame()` (44 R148): the count and the fill byte. -/
def endFrame (s : State) : Word × Byte :=
  if endFixed s.cfg0 then (s.endCount, if endPol s.cfg0 then 0xFF else 0x00)
  else (ceil16 (if cntSupplied s.cfg0 then s.ledCount else s.n), 0x00)

/-- The reset frame, if enabled (44 R145). -/
def txReset (s : State) : Flow := if resetEn s.cfg0 then txSeg zeroFrame s else .go s

/-! ## Registers by index, and reset -/

/-- The register with an index, as it reads (10 R17 to R24), `ERR_CODE` with its bits above `ERR_W-1` zero (R23); 7 to 15
name none (R25). -/
def regRead (idx : BitVec 4) (s : State) : Option Word :=
  match idx.toNat with
  | 0 => some s.cfg0
  | 1 => some s.endCount
  | 2 => some s.ledCount
  | 3 => some s.corr
  | 4 => some (statusWord s)
  | 5 => some (errBits s.errCode)
  | 6 => some s.n
  | _ => none

/-- Write a register (45 R171); only 0 to 3 can be written. -/
def regWrite (idx : BitVec 4) (val : Word) (s : State) : State :=
  match idx.toNat with
  | 0 => { s with cfg0 := val }
  | 1 => { s with endCount := val }
  | 2 => { s with ledCount := val }
  | 3 => { s with corr := val }
  | _ => s

/-- Reset (70 R200, R201): every register as `State.reset` has it; a command in progress is abandoned without a response;
the beats presented stay presented, and the ports' inputs are the environment's. -/
def resetEvent (s : State) : State :=
  { State.reset with tx := s.tx, responses := s.responses, host := s.host, answers := s.answers }

end Sys2Proof.Machine
end

