-- ==== Sys2Proof/Machine/Compute.lean ====
section
/-! DEFINITION. The compute commands: `GAMMA`, `SCALE`, `MAP`, `BSHIFT8`, `BSHIFT16`, `ENCLIN16`, `ENCPERC8` (spec 40 R94,
41 R100, R103, 42 R110, R113, 43 R121, R122). Each is admitted in every sequencer state (44 R146) and presents no beat. -/

namespace Sys2Proof.Machine

/-- A compute command whose legality is settled: admitted everywhere, it responds `OK` with its payload. -/
def answerWith (payload : Word) (s : State) : Host.Outcome State Fault Refusal :=
  ifAdmitted .otherCmd s fun s => .next (respond .ok payload s)

/-- `GAMMA idx` (40 R94). -/
def execGamma (idx : Byte) (s : State) : Host.Outcome State Fault Refusal :=
  answerWith ((romRead idx).setWidth 32) s

/-- `SCALE val16, sc8` (41 R100). -/
def execScale (val : Half) (sc : Byte) (s : State) : Host.Outcome State Fault Refusal :=
  answerWith ((scale16by8 val sc).setWidth 32) s

/-- `MAP val16` (41 R103). -/
def execMap (val : Half) (s : State) : Host.Outcome State Fault Refusal :=
  answerWith ((map16to8 val).setWidth 32) s

/-- The payload of `BSHIFT8`: `zext_8(0) ++ n ++ s ++ d` (42 R110). -/
def Shift8.pack (p : Shift8) : Word := 0#8 ++ p.cnt ++ p.src ++ p.dst

/-- The payload of `BSHIFT16`: `n ++ s ++ d` (42 R113). -/
def Shift16.pack (p : Shift16) : Word := p.cnt ++ p.src ++ p.dst

/-- `BSHIFT8 src, dst, max` (42 R110). -/
def execBshift8 (src dst max : Byte) (s : State) : Host.Outcome State Fault Refusal :=
  answerWith (bshift8 src dst max).pack s

/-- `BSHIFT16 src, dst, max, steps` (42 R113). -/
def execBshift16 (src : Byte) (dst : Half) (max steps : Byte) (s : State) : Host.Outcome State Fault Refusal :=
  if stepsLegal steps then answerWith (bshift16 src dst max steps).pack s else .next (raise .illegal s)

/-- The response of an encoder command is the packed latch it has just written (43 R121, R122). -/
def answerLatch (w : Work) (s : State) : Host.Outcome State Fault Refusal :=
  answerWith w.out.pack { s with w := w }

/-- `ENCLIN16 brt, r16, g16, b16` (43 R121). -/
def execEnclin16 (brt : Byte) (r g b : Half) (s : State) : Host.Outcome State Fault Refusal :=
  answerLatch (encLin16 r g b brt s.w) s

/-- `ENCPERC8 brt, r8, g8, b8 [, cr, cg, cb]` (43 R122); the correction comes from the word. -/
def execEncperc8 (brt r g b : Byte) (cp : Bool) (cr cg cb : Byte) (s : State) : Host.Outcome State Fault Refusal :=
  if corrLegal cp cr cg cb then answerLatch (encPerc8 r g b brt (wordCorrection cp cr cg cb) s.w) s
  else .next (raise .illegal s)

end Sys2Proof.Machine
end

