-- ==== Sys2Proof/Machine/Frame.lean ====
section
/-! DEFINITION. The frame commands: `BEGIN`, `PIXDEV`, `PIXLIN16`, `PIXPERC8`, `END` (spec 44 R140 to R152). -/

namespace Sys2Proof.Machine

/-- `BEGIN` (44 R141); in `FRAMING` it abandons the frame write in progress (R152). -/
def execBegin (s : State) : Host.Outcome State Fault Refusal :=
  ifAdmitted .beginCmd s fun s =>
    .next ((txSeg zeroFrame { s with n := 0 }).finish fun t => respond .ok 0 (enterFraming t))

/-- `PIXDEV brt, red, grn, blu` (44 R142). -/
def execPixdev (brt red grn blu : Byte) (s : State) : Host.Outcome State Fault Refusal :=
  ifAdmitted .pixelCmd s fun s => ifCountable s fun s => emitPixel brt red grn blu s

/-- `PIXLIN16 brt, r16, g16, b16` (44 R143). -/
def execPixlin16 (brt : Byte) (r g b : Half) (s : State) : Host.Outcome State Fault Refusal :=
  ifAdmitted .pixelCmd s fun s => ifCountable s fun s => emitLatch { s with w := encLin16 r g b brt s.w }

/-- `PIXPERC8 brt, r8, g8, b8` (44 R144); the correction comes from the registers. -/
def execPixperc8 (brt r g b : Byte) (s : State) : Host.Outcome State Fault Refusal :=
  ifAdmitted .pixelCmd s fun s => ifCountable s fun s =>
    emitLatch { s with w := encPerc8 r g b brt (registerCorrection s) s.w }

/-- `END` (44 R145): the reset frame if enabled, the end frame, then `ENDED`. -/
def execEnd (s : State) : Host.Outcome State Fault Refusal :=
  ifAdmitted .endCmd s fun s =>
    .next (((txReset s).andThen fun t => txEnd (endFrame t).1 (endFrame t).2 t).finish fun t =>
      respond .ok 0 { t with st := .ended })

end Sys2Proof.Machine
end

