-- ==== Sys2Proof/Machine/Register.lean ====
section
/-! DEFINITION. The register commands: `CFGWR`, `CFGRD` (spec 45 R170 to R172). -/

namespace Sys2Proof.Machine

/-- `CFGWR reg, val` (45 R171): word-level checks, then admission, then the write. -/
def execCfgwr (idx : BitVec 4) (val : Word) (s : State) : Host.Outcome State Fault Refusal :=
  if cfgwrLegal idx val then
    ifAdmitted .cfgwrCmd s fun s => .next (respond .ok 0 (regWrite idx val s))
  else .next (raise .illegal s)

/-- `CFGRD reg` (45 R172). -/
def execCfgrd (idx : BitVec 4) (s : State) : Host.Outcome State Fault Refusal :=
  match regRead idx s with
  | none => .next (raise .illegal s)
  | some v => ifAdmitted .otherCmd s fun s => .next (respond .ok v s)

end Sys2Proof.Machine
end

