-- ==== Sys2Proof/Machine/Dispatch.lean ====
section
/-! DEFINITION. One arm per instruction, each one call of its meaning. -/

namespace Sys2Proof.Machine

def exec (i : Instr) (s : State) : Host.Outcome State Fault Refusal :=
  match i with
  -- frame commands
  | .beginFrame => Sys2Proof.Machine.execBegin s
  | .pixdev brt red grn blu => Sys2Proof.Machine.execPixdev brt red grn blu s
  | .pixlin16 brt r g b => Sys2Proof.Machine.execPixlin16 brt r g b s
  | .pixperc8 brt r g b => Sys2Proof.Machine.execPixperc8 brt r g b s
  | .endFrame => Sys2Proof.Machine.execEnd s
  -- register commands
  | .cfgwr idx val => Sys2Proof.Machine.execCfgwr idx val s
  | .cfgrd idx => Sys2Proof.Machine.execCfgrd idx s
  -- compute commands
  | .gamma idx => Sys2Proof.Machine.execGamma idx s
  | .scale val sc => Sys2Proof.Machine.execScale val sc s
  | .map val => Sys2Proof.Machine.execMap val s
  | .bshift8 src dst max => Sys2Proof.Machine.execBshift8 src dst max s
  | .bshift16 src dst max steps => Sys2Proof.Machine.execBshift16 src dst max steps s
  | .enclin16 brt r g b => Sys2Proof.Machine.execEnclin16 brt r g b s
  | .encperc8 brt r g b cp cr cg cb => Sys2Proof.Machine.execEncperc8 brt r g b cp cr cg cb s

end Sys2Proof.Machine
end

