-- ==== Sys2Proof/WellFormed.lean ====
section
/-! DEFINITION. Which commands are legal as words: the operand conditions (c) to (h) of spec 30 R74. Conditions (a) and (b)
concern words that are no command at all; the decoder rejects those. -/

namespace Sys2Proof

/-- None of the conditions R74 (c) to (h) holds of the command. -/
def Instr.wellFormed : Instr → Bool
  | .beginFrame => true
  | .pixdev _ _ _ _ => true
  | .pixlin16 _ _ _ _ => true
  | .pixperc8 _ _ _ _ => true
  | .endFrame => true
  -- R74 (e), (f): index 7 to 15, or one of the read-only 4, 5, 6; (g): CFG0; (h): CORR
  | .cfgwr idx val =>
      (idx == 0 && val.extractLsb 31 8 == 0 && val.extractLsb 2 0 != 6 && val.extractLsb 2 0 != 7)
        || idx == 1 || idx == 2 || (idx == 3 && val.extractLsb 31 24 == 0)
  -- R74 (e)
  | .cfgrd idx => decide (idx < 7)
  | .gamma _ => true
  | .scale _ _ => true
  | .map _ => true
  | .bshift8 _ _ _ => true
  -- R74 (c)
  | .bshift16 _ _ _ steps => steps == 1 || steps == 2
  | .enclin16 _ _ _ _ => true
  -- R74 (d)
  | .encperc8 _ _ _ _ cp cr cg cb => cp || (cr == 0 && cg == 0 && cb == 0)

end Sys2Proof
end

