-- ==== Sys2Proof/Decode.lean ====
section
/-! DEFINITION. The decoder: a command word is the command of the one row of spec 30 R63 whose mask and match it meets; a
word that meets none is rejected by name (R74 (a), (b)). After it the encoder, written from the field tables of R65. -/

namespace Sys2Proof

/-- Why a word is no command (30 R74). -/
inductive IllegalWord where
  /-- R74 (a): `OP` is `0x0` or `0xF`. -/
  | reservedOpcode
  /-- R74 (b): a bit that the opcode's format marks reserved is 1. -/
  | reservedBits
deriving DecidableEq, Repr

/-- Bits `lo + len - 1` down to `lo` of a command word (00 R9, 30 R61). -/
def cmdField (lo len : Nat) (c : Cmd) : BitVec len := c.extractLsb' lo len

/-- `OP`, bits 63:60 (R61). -/
def cmdOp (c : Cmd) : BitVec 4 := cmdField 60 4 c

/-- A row of R63's table with its format of R65. -/
structure OpRow where
  pattern : Cmd
  mask : Cmd
  fields : Cmd → Instr

/-- Frame commands (R62 to R65; formats Z, D, L, P, Z). -/
def frameRows : List OpRow :=
  [ ⟨0x1000000000000000, 0xFFFFFFFFFFFFFFFF, fun _ => .beginFrame⟩,
    ⟨0x2000000000000000, 0xFFFFFFFF00000000, fun c =>
      .pixdev (cmdField 24 8 c) (cmdField 16 8 c) (cmdField 8 8 c) (cmdField 0 8 c)⟩,
    ⟨0x3000000000000000, 0xFF00000000000000, fun c =>
      .pixlin16 (cmdField 48 8 c) (cmdField 32 16 c) (cmdField 16 16 c) (cmdField 0 16 c)⟩,
    ⟨0x4000000000000000, 0xFFFFFFFF00000000, fun c =>
      .pixperc8 (cmdField 24 8 c) (cmdField 16 8 c) (cmdField 8 8 c) (cmdField 0 8 c)⟩,
    ⟨0x5000000000000000, 0xFFFFFFFFFFFFFFFF, fun _ => .endFrame⟩ ]

/-- Register commands (formats W, Q). -/
def registerRows : List OpRow :=
  [ ⟨0x6000000000000000, 0xF0FFFFFF00000000, fun c => .cfgwr (cmdField 56 4 c) (cmdField 0 32 c)⟩,
    ⟨0x7000000000000000, 0xF0FFFFFFFFFFFFFF, fun c => .cfgrd (cmdField 56 4 c)⟩ ]

/-- Compute commands (formats G, S, M, B8, B16, L, PC). -/
def computeRows : List OpRow :=
  [ ⟨0x8000000000000000, 0xFFFFFFFFFFFFFF00, fun c => .gamma (cmdField 0 8 c)⟩,
    ⟨0x9000000000000000, 0xFFFFFFFFFF000000, fun c => .scale (cmdField 8 16 c) (cmdField 0 8 c)⟩,
    ⟨0xA000000000000000, 0xFFFFFFFFFFFF0000, fun c => .map (cmdField 0 16 c)⟩,
    ⟨0xB000000000000000, 0xFFFFFFFFFF000000, fun c =>
      .bshift8 (cmdField 8 8 c) (cmdField 0 8 c) (cmdField 16 8 c)⟩,
    ⟨0xC000000000000000, 0xFFFFFF0000000000, fun c =>
      .bshift16 (cmdField 16 8 c) (cmdField 0 16 c) (cmdField 24 8 c) (cmdField 32 8 c)⟩,
    ⟨0xD000000000000000, 0xFF00000000000000, fun c =>
      .enclin16 (cmdField 48 8 c) (cmdField 32 16 c) (cmdField 16 16 c) (cmdField 0 16 c)⟩,
    ⟨0xE000000000000000, 0xFE00000000000000, fun c =>
      .encperc8 (cmdField 24 8 c) (cmdField 16 8 c) (cmdField 8 8 c) (cmdField 0 8 c)
        (cmdField 56 1 c == 1) (cmdField 48 8 c) (cmdField 40 8 c) (cmdField 32 8 c)⟩ ]

/-- The opcode map of R62, R63, in opcode order. -/
def opRows : List OpRow := frameRows ++ registerRows ++ computeRows

/-- R63: a word `c` is the command of a row when `c & mask = match`. -/
def OpRow.hit (r : OpRow) (c : Cmd) : Bool := c &&& r.mask == r.pattern

/-- The command a word spells, or why it spells none. Operand conditions (R74 (c) to (h)) are not the decoder's: they are
checked by the command's meaning, and stated by `Instr.wellFormed`. -/
def decode (c : Cmd) : Except IllegalWord Instr :=
  match opRows.find? (fun r => r.hit c) with
  | some r => .ok (r.fields c)
  | none => if cmdOp c = 0x0 ∨ cmdOp c = 0xF then .error .reservedOpcode else .error .reservedBits

/-- A field placed with its lowest bit at bit `lo` of a command word, every other bit zero (R61, R65). -/
def putField {len : Nat} (lo : Nat) (f : BitVec len) : Cmd := f.setWidth 64 <<< lo

/-- The word of a command: `OP` in bits 63:60, the fields of R65 in their places, zero in every reserved bit. -/
def encode : Instr → Cmd
  | .beginFrame => putField 60 0x1#4
  | .pixdev brt red grn blu =>
      putField 60 0x2#4 ||| putField 24 brt ||| putField 16 red ||| putField 8 grn ||| putField 0 blu
  | .pixlin16 brt r g b =>
      putField 60 0x3#4 ||| putField 48 brt ||| putField 32 r ||| putField 16 g ||| putField 0 b
  | .pixperc8 brt r g b =>
      putField 60 0x4#4 ||| putField 24 brt ||| putField 16 r ||| putField 8 g ||| putField 0 b
  | .endFrame => putField 60 0x5#4
  | .cfgwr idx val => putField 60 0x6#4 ||| putField 56 idx ||| putField 0 val
  | .cfgrd idx => putField 60 0x7#4 ||| putField 56 idx
  | .gamma idx => putField 60 0x8#4 ||| putField 0 idx
  | .scale val sc => putField 60 0x9#4 ||| putField 8 val ||| putField 0 sc
  | .map val => putField 60 0xA#4 ||| putField 0 val
  | .bshift8 src dst max => putField 60 0xB#4 ||| putField 16 max ||| putField 8 src ||| putField 0 dst
  | .bshift16 src dst max steps =>
      putField 60 0xC#4 ||| putField 32 steps ||| putField 24 max ||| putField 16 src ||| putField 0 dst
  | .enclin16 brt r g b =>
      putField 60 0xD#4 ||| putField 48 brt ||| putField 32 r ||| putField 16 g ||| putField 0 b
  | .encperc8 brt r g b cp cr cg cb =>
      putField 60 0xE#4 ||| putField 56 (BitVec.ofBool cp) ||| putField 48 cr ||| putField 40 cg |||
        putField 32 cb ||| putField 24 brt ||| putField 16 r ||| putField 8 g ||| putField 0 b

/-- The instruction the decoder reads from an instruction whose bits are `w`, numbered as spec/opcode_table.json numbers
them. Every command is one 64-bit word (R60), so bit 0 of `w` is bit 0 of the word and bits above `nbits` are 0. -/
def decodeTableWord (nbits w : Nat) : Option Instr :=
  match decode (BitVec.ofNat 64 (w % 2 ^ nbits)) with
  | .ok i => some i
  | .error _ => none

end Sys2Proof
end

