-- ==== Sys2Proof/Machine/Fetch.lean ====
section
/-! DEFINITION. What the block finds when it looks for its next command (spec 20 R50, 60 R198, 70 R200, R201, R214). -/

namespace Sys2Proof.Machine

/-- What happens next. -/
inductive Fetched where
  /-- no command is in progress and none is offered: the block waits for the host (60 R198) -/
  | idle
  /-- a beat is unanswered and reset is not asserted: the block has no step (70 R214) -/
  | stuck
  /-- reset is asserted; the state after it (70 R200, R201) -/
  | reset (s : State)
  /-- a word that is a command is accepted; the state with the word taken (20 R50) -/
  | instr (i : Instr) (s : State)
  /-- a word that is no command is accepted (30 R74 (a), (b)) -/
  | illegal (s : State)
deriving DecidableEq, Repr

/-- The host's first event taken off its list. -/
def takeEvent (s : State) : State := { s with host := s.host.tail }

/-- Look for the next command. While a beat is unanswered no command is accepted and only reset acts (20 R50, 70 R214). -/
def fetch (s : State) : Fetched :=
  match s.host with
  | [] => if s.waiting then .stuck else .idle
  | .reset :: _ => .reset (resetEvent (takeEvent s))
  | .command c :: _ =>
    if s.waiting then .stuck
    else
      match decode c with
      | .ok i => .instr i (takeEvent s)
      | .error _ => .illegal (takeEvent s)

/-- Place a command word so that the next step accepts it: the host offers it first, no earlier command being in progress. -/
def offer (c : Cmd) (s : State) : State := { s with host := .command c :: s.host, waiting := false }

end Sys2Proof.Machine
end

