-- ==== Sys2Proof/Machine/Step.lean ====
section
/-! DEFINITION. One step: one command from its acceptance to its response, or one reset (spec 20 R50, 30 R64, 70 R200;
assumption log 9). -/

namespace Sys2Proof.Machine

/-- One step of the block. An idle block stays as it is (60 R198); a word that is no command is refused with `ILLEGAL`
before anything else (30 R74, 60 R188). -/
def step (s : State) : Host.Outcome State Fault Refusal :=
  match fetch s with
  | .idle => .next s
  | .stuck => .fault .transportSilent
  | .reset t => .next t
  | .instr i t => exec i t
  | .illegal t => .next (raise .illegal t)

/-- `s` with the instruction whose bits are `w` offered as the host's next command (assumption log 7). -/
def State.withFetchWord (s : State) (nbits w : Nat) : State := offer (BitVec.ofNat 64 (w % 2 ^ nbits)) s

end Sys2Proof.Machine
end

