-- ==== Sys2Proof/Safety.lean ====
section
/-! DEFINITION. The terms claims are stated in: the invariants, what a frame command presents, and the spec's own closed
forms of the arithmetic over natural numbers, written apart from the machine's definitions. No step of the machine calls
anything of this file. -/

namespace Sys2Proof.Safety

open Sys2Proof.Machine

/-! ## Invariants and safe outcomes -/

/-- `CFG0` and `CORR` hold no reserved value: bits 31:8 of `CFG0` are zero and `CH_ORDER` is 0 to 5 (10 R18); bits 31:24 of
`CORR` are zero (R21). -/
abbrev RegsLegal (s : State) : Prop :=
  s.cfg0.toNat < 256 ∧ s.cfg0.toNat % 8 ≤ 5 ∧ s.corr.toNat < 2 ^ 24

/-- An answer whose error code has `ERR_W` bits (20 R46; assumption log 2). -/
def AnswerLegal : Answer → Prop
  | .err e => e.toNat < 2 ^ Config.errW
  | _ => True

/-- No error code the block holds or has shown has a bit above `ERR_W - 1` (10 R23): not `ERR_CODE`, no answer on record, no
payload of an `XERR` response. -/
abbrev ErrLegal (s : State) : Prop :=
  s.errCode.toNat < 2 ^ Config.errW ∧ (∀ b ∈ s.tx, AnswerLegal b.answer) ∧
    ∀ r ∈ s.responses, r.code = .xerr → r.payload.toNat < 2 ^ Config.errW

/-- While no transport error was taken `ERR_CODE` has its reset value (10 R23), and an aborted frame write is on record in
`STATUS.XERR` (60 R183, R191). -/
abbrev AbortRecorded (s : State) : Prop :=
  (s.xerr = false → s.errCode = 0) ∧ (s.st = .aborted → s.xerr = true)

/-- The only stop a legal state can come to: a beat is unanswered and the host does not assert reset (70 R214). -/
abbrev StuckOnTransport (s : State) : Prop := s.waiting = true ∧ s.host.head? ≠ some .reset

/-! ## What the host's first event is -/

/-- The host's first event is reset. -/
abbrev ResetFirst (s : State) : Prop := s.host.head? = some .reset

/-- The host's first event is the command word of `i`. -/
abbrev OffersFirst (i : Instr) (s : State) : Prop := ∃ c, s.host.head? = some (.command c) ∧ decode c = .ok i

/-! ## Comparing outcomes -/

/-- An outcome with its next state seen through `f`. -/
def through (f : State → State) : Host.Outcome State Fault Refusal → Host.Outcome State Fault Refusal
  | .next t => .next (f t)
  | .fault r => .fault r
  | .refused r => .refused r

/-- A state without its working registers, latch and hidden state (10 R11, R12, R27). -/
def hideWorking (s : State) : State := { s with w := Work.reset, fb := ⟨0, 0, 0, 0⟩, bi := 0, ec := 0 }

/-- A state without its sticky flags (10 R16). -/
def hideFlags (s : State) : State := { s with xerr := false, proto := false, ill := false, ovf := false }

/-- A state without its working registers and latch. -/
def hideWork (s : State) : State := { s with w := Work.reset }

/-! ## Kinds of command (30 R62) -/

/-- The seven compute commands. -/
def isCompute : Instr → Bool
  | .gamma _ | .scale _ _ | .map _ | .bshift8 _ _ _ | .bshift16 _ _ _ _ | .enclin16 _ _ _ _
  | .encperc8 _ _ _ _ _ _ _ _ => true
  | _ => false

/-- The three pixel commands. -/
def isPixel : Instr → Bool
  | .pixdev _ _ _ _ | .pixlin16 _ _ _ _ | .pixperc8 _ _ _ _ => true
  | _ => false

/-- `CFGWR`. -/
def isCfgwr : Instr → Bool
  | .cfgwr _ _ => true
  | _ => false

/-- A frame command that executes in `s`: past the admission table and the counter check (44 R140, R146, R147). -/
def Executes (i : Instr) (s : State) : Prop :=
  i = .beginFrame ∨ (isPixel i = true ∧ s.st = .framing ∧ s.n ≠ 0xFFFFFFFF) ∨ (i = .endFrame ∧ s.st = .framing)

/-! ## Closed forms over the natural numbers -/

/-- `scale16by8` (41 R100, R101(e)). -/
def scaleN (x c : Nat) : Nat := if c = 0 then 0 else x * (c + 1) / 256

/-- `map16_to_8` (41 R104(a)). -/
def mapN (x : Nat) : Nat := min 255 ((x + 128) / 256)

/-- The shift count of step 3 (43 R123). -/
def shiftOne (brt : Nat) : Nat :=
  if 128 ≤ brt then 0 else if 64 ≤ brt then 1 else if 32 ≤ brt then 2 else if 16 ≤ brt then 3 else 4

/-- How far the maximum channel lets step 4 shift (43 R124's `k`, at most 4). -/
def headroom (m : Nat) : Nat :=
  if 0x4000 ≤ m then 0 else if 0x1000 ≤ m then 1 else if 0x0400 ≤ m then 2 else if 0x0100 ≤ m then 3 else 4

/-- The shift count of step 4 (43 R124). -/
def shiftTwo (brt m : Nat) : Nat := min (4 - shiftOne brt) (headroom m)

/-- A device pixel as natural numbers: brightness, red, green, blue. -/
structure PixelN where
  brt : Nat
  red : Nat
  grn : Nat
  blu : Nat
deriving DecidableEq, Repr

/-- One channel through steps 4, 5 and 7 (43 R121, R123 to R125). -/
def channelN (brt m x : Nat) : Nat :=
  let br := brt * 2 ^ shiftOne brt
  let y := x * 2 ^ shiftTwo brt m
  mapN (if br = 255 then y else scaleN y br)

/-- `enc_lin16` in closed form (43 R121, R123, R124, R128). -/
def encLinN (r g b brt : Nat) : PixelN :=
  if brt = 0 then ⟨0, 0, 0, 0⟩
  else if r = 0 ∧ g = 0 ∧ b = 0 then ⟨min brt 31, 0, 0, 0⟩
  else
    let m := max r (max g b)
    ⟨32 / 2 ^ (shiftOne brt + shiftTwo brt m) - 1, channelN brt m r, channelN brt m g, channelN brt m b⟩

/-- `enc_perc8` in closed form (43 R122): the gamma table, then the correction if there is one, then `enc_lin16`. -/
def encPercN (r g b : Byte) (brt : Nat) (corr : Option Correction) : PixelN :=
  match corr with
  | none => encLinN (Config.gamma r).toNat (Config.gamma g).toNat (Config.gamma b).toNat brt
  | some c =>
    encLinN (scaleN (Config.gamma r).toNat c.cr.toNat) (scaleN (Config.gamma g).toNat c.cg.toNat)
      (scaleN (Config.gamma b).toNat c.cb.toNat) brt

/-- A DeviceColor packed into 32 bits (10 R12). -/
def PixelN.packed (p : PixelN) : Word :=
  BitVec.ofNat 32 (p.brt * 2 ^ 24 + p.red * 2 ^ 16 + p.grn * 2 ^ 8 + p.blu)

/-! ## What a frame command presents -/

/-- The bytes of one segment with their `last` markers (20 R47). -/
def seg : List Byte → List (Byte × Bool)
  | [] => []
  | b :: bs => (b, bs.isEmpty) :: seg bs

/-- A planned beat with the answer it drew. -/
def answered (a : Answer) (p : Byte × Bool) : Beat := ⟨p.1, p.2, a⟩

/-- Beats that were all answered `OK`. -/
def okBeats (ps : List (Byte × Bool)) : List Beat := ps.map (answered .ok)

/-- The three channel bytes in the order `CFG0.CH_ORDER` names (30 R72). -/
def orderBytes (cfg0 : Word) (r g b : Byte) : List Byte :=
  match cfg0.toNat % 8 with
  | 0 => [r, g, b]
  | 1 => [r, b, g]
  | 2 => [g, r, b]
  | 3 => [g, b, r]
  | 4 => [b, r, g]
  | 5 => [b, g, r]
  | _ => []

/-- A pixel frame (30 R71 to R73): the marker `0b111` over the low five brightness bits, then the channels. -/
def pixelBytes (cfg0 : Word) (brt r g b : Byte) : List Byte :=
  BitVec.ofNat 8 (0xE0 + brt.toNat % 32) :: orderBytes cfg0 r g b

/-- The pixel frame of an encoder's result. -/
def pixelBytesN (cfg0 : Word) (p : PixelN) : List Byte :=
  pixelBytes cfg0 (BitVec.ofNat 8 p.brt) (BitVec.ofNat 8 p.red) (BitVec.ofNat 8 p.grn) (BitVec.ofNat 8 p.blu)

/-- The correction `PIXPERC8` applies (44 R144, 10 R18, R21). -/
def frameCorrection (s : State) : Option Correction :=
  if s.cfg0.toNat / 2 ^ 7 % 2 = 1 then
    some ⟨BitVec.ofNat 8 (s.corr.toNat / 2 ^ 16), BitVec.ofNat 8 (s.corr.toNat / 2 ^ 8), BitVec.ofNat 8 s.corr.toNat⟩
  else none

/-- The number of end-frame bytes when `n` pixels were counted (44 R148, R149). -/
def endCount (s : State) (n : Nat) : Nat :=
  if s.cfg0.toNat / 2 ^ 3 % 2 = 1 then s.endCount.toNat
  else ((if s.cfg0.toNat / 2 ^ 5 % 2 = 1 then s.ledCount.toNat else n) + 15) / 16

/-- The end-frame byte (44 R148): `0xFF` under the fixed policy with the polarity bit set, else `0x00`. -/
def endFill (s : State) : Byte :=
  if s.cfg0.toNat / 2 ^ 3 % 2 = 1 ∧ s.cfg0.toNat / 2 ^ 4 % 2 = 1 then 0xFF else 0x00

/-- The start frame, and the reset frame (30 R71). -/
def zeros : List (Byte × Bool) := seg [0, 0, 0, 0]

/-- What `END` presents when `n` pixels were counted (44 R145, 30 R71). -/
def endBeats (s : State) (n : Nat) : List (Byte × Bool) :=
  (if s.cfg0.toNat / 2 ^ 6 % 2 = 1 then zeros else []) ++ seg (List.replicate (endCount s n) (endFill s))

/-- What a frame command presents, if every beat is answered `OK` (44 R141 to R145, R148). -/
def planned (i : Instr) (s : State) : List (Byte × Bool) :=
  match i with
  | .beginFrame => zeros
  | .pixdev brt r g b => seg (pixelBytes s.cfg0 brt r g b)
  | .pixlin16 brt r g b => seg (pixelBytesN s.cfg0 (encLinN r.toNat g.toNat b.toNat brt.toNat))
  | .pixperc8 brt r g b => seg (pixelBytesN s.cfg0 (encPercN r g b brt.toNat (frameCorrection s)))
  | .endFrame => endBeats s s.n.toNat
  | _ => []

/-- `seq.N` once a frame command has begun to present beats: `BEGIN` clears it first (44 R141). -/
def startCount (i : Instr) (s : State) : Word := if i = .beginFrame then 0 else s.n

/-! ## Command sequences -/

/-- Execute commands in order, each accepted after the one before it has responded (20 R50); `none` if one stops. -/
def execAll : List Instr → State → Option State
  | [], s => some s
  | i :: is, s =>
    match exec i s with
    | .next t => execAll is t
    | _ => none

/-- The commands of a whole frame write of pixels already converted, each (brt, red, grn, blu) (44 R150). -/
def frameWrite (px : List (Byte × Byte × Byte × Byte)) : List Instr :=
  .beginFrame :: (px.map fun p => .pixdev p.1 p.2.1 p.2.2.1 p.2.2.2) ++ [.endFrame]

/-- What a whole frame write presents (44 R150). -/
def frameBeats (s : State) (px : List (Byte × Byte × Byte × Byte)) : List (Byte × Bool) :=
  zeros ++ px.flatMap (fun p => seg (pixelBytes s.cfg0 p.1 p.2.1 p.2.2.1 p.2.2.2)) ++ endBeats s px.length

end Sys2Proof.Safety
end

