-- ==== Sys2Proof/Certificates/Slice0/Obligations.lean ====
section
/-! DEFINITION. The statements for the provers, each a rule of the spec about what a command or the machine does. -/

open Sys2Proof Sys2Proof.Machine Sys2Proof.Safety

/-! ## Encoding -/

/-- 30 R61, R63, R65: no bit of an encoding is dropped; every command at every operand value comes back. -/
def Obligations.EveryCommandRoundTrips : Prop :=
  ∀ i : Instr, decode (encode i) = .ok i

/-- 30 R61, R63: a word has one spelling; every word that is a command is the encoding of that command. -/
def Obligations.EveryCommandWordHasOneSpelling : Prop :=
  ∀ (c : Cmd) (i : Instr), decode c = .ok i → encode i = c

/-- 95 sections 2 and 3: words the spec writes out, one for each row of the opcode table. -/
def Obligations.SpecWordsDecode : Prop :=
  decode 0x1000000000000000 = .ok .beginFrame ∧
  decode 0x2000000005AABBCC = .ok (.pixdev 5 0xAA 0xBB 0xCC) ∧
  decode 0x3040010000000000 = .ok (.pixlin16 64 0x0100 0 0) ∧
  decode 0x40000000FFFF7F2B = .ok (.pixperc8 255 255 127 43) ∧
  decode 0x5000000000000000 = .ok .endFrame ∧
  decode 0x6300000000FF8000 = .ok (.cfgwr 3 0x00FF8000) ∧
  decode 0x7600000000000000 = .ok (.cfgrd 6) ∧
  decode 0x800000000000007F = .ok (.gamma 127) ∧
  decode 0x9000000000123456 = .ok (.scale 0x1234 86) ∧
  decode 0xA00000000000BFFF = .ok (.map 0xBFFF) ∧
  decode 0xB000000000024003 = .ok (.bshift8 64 3 2) ∧
  decode 0xC000000104100001 = .ok (.bshift16 16 1 4 1) ∧
  decode 0xD0C8123456780ABC = .ok (.enclin16 200 0x1234 0x5678 0x0ABC) ∧
  decode 0xE101020300FFFFFF = .ok (.encperc8 0 255 255 255 true 1 2 3)

/-- 30 R63: the fourteen (match, mask) pairs are disjoint: a word meets the mask and match of one row at most, told apart by
its place in the map. -/
def Obligations.NoWordMeetsTwoRows : Prop :=
  opRows.length = 14 ∧
  ∀ (c : Cmd) (j k : Nat) (r r' : OpRow), opRows[j]? = some r → opRows[k]? = some r' →
    r.hit c = true → r'.hit c = true → j = k

/-- 30 R74 (a), (b): a word is rejected for its opcode exactly when `OP` is `0x0` or `0xF`, and for a reserved bit exactly
when its opcode is a command's but no command is spelled by it. -/
def Obligations.WordsRejectedByName : Prop :=
  (∀ c : Cmd, decode c = .error .reservedOpcode ↔ c.toNat / 2 ^ 60 = 0 ∨ c.toNat / 2 ^ 60 = 15) ∧
  (∀ c : Cmd, decode c = .error .reservedBits ↔
    (1 ≤ c.toNat / 2 ^ 60 ∧ c.toNat / 2 ^ 60 ≤ 14 ∧ ∀ i, encode i ≠ c))

/-! ## The step -/

/-- 20 R50: when the word the host offers first is the command `i` and no command is in progress, the step is `exec i` at the
state with that word taken off the port. -/
def Obligations.StepRunsDecodedCommand : Prop :=
  ∀ (s : State) (c : Cmd) (rest : List HostEvent) (i : Instr),
    s.waiting = false → s.host = .command c :: rest → decode c = .ok i →
    step s = exec i { s with host := rest }

/-- 30 R74 (a), (b), 60 R185: a word that is no command is refused with `ILLEGAL`: `STATUS.ILL` is set, the response is
(ILLEGAL, 0), no beat is presented and nothing else changes. -/
def Obligations.StepRefusesWordsThatAreNoCommand : Prop :=
  ∀ (s : State) (c : Cmd) (rest : List HostEvent) (e : IllegalWord),
    s.waiting = false → s.host = .command c :: rest → decode c = .error e →
    step s = .next { s with host := rest, ill := true, responses := s.responses ++ [⟨.illegal, 0⟩] }

/-- 30 R74, 60 R185, R188: a command that meets one of the conditions (c) to (h) is refused with `ILLEGAL` in every state;
no other command ever responds `ILLEGAL`. -/
def Obligations.IllegalExactlyWhenMalformed : Prop :=
  (∀ (i : Instr) (s : State), i.wellFormed = false →
    exec i s = .next { s with ill := true, responses := s.responses ++ [⟨.illegal, 0⟩] }) ∧
  (∀ (i : Instr) (s t : State) (p : Word), i.wellFormed = true → exec i s = .next t →
    t.responses ≠ s.responses ++ [⟨.illegal, p⟩])

/-- 70 R200, R201: reset, asserted in any state (while a beat is unanswered too), leaves every register at its reset value;
no response is produced, no beat is presented, and the beats already presented stay. -/
def Obligations.ResetFromEveryState : Prop :=
  ∀ (s : State) (rest : List HostEvent), s.host = .reset :: rest →
    ∃ t, step s = .next t ∧ t.st = .idle ∧ t.n = 0 ∧ t.cfg0 = 0x00000005 ∧ t.endCount = 0 ∧ t.ledCount = 0 ∧
      t.corr = 0x00FFFFFF ∧ statusWord t = 0 ∧ t.errCode = 0 ∧ t.waiting = false ∧
      t.tx = s.tx ∧ t.responses = s.responses ∧ t.host = rest ∧ t.answers = s.answers

/-- 10 R29: what the seven registers read after reset. -/
def Obligations.RegistersReadAfterReset : Prop :=
  regRead 0 State.reset = some 0x00000005 ∧ regRead 1 State.reset = some 0 ∧ regRead 2 State.reset = some 0 ∧
  regRead 3 State.reset = some 0x00FFFFFF ∧ regRead 4 State.reset = some 0 ∧ regRead 5 State.reset = some 0 ∧
  regRead 6 State.reset = some 0 ∧ State.reset.st = .idle ∧ State.reset.n = 0

/-- 20 R46, 60 R198, 70 R214: what the block does when it can go no further on its own. While a beat is unanswered it has no
step, whatever command is offered (the stop `transportSilent` stands for that; assumption log 8); with no command in progress
and none offered it waits, unchanged (assumption log 7). -/
def Obligations.BlockWaitsForTransportOrHost : Prop :=
  (∀ s : State, s.waiting = true → s.host.head? ≠ some .reset → step s = .fault .transportSilent) ∧
  (∀ s : State, s.waiting = false → s.host = [] → step s = .next s)

/-! ## Invariants of every step -/

/-- 10 R18, R21: no step puts a reserved value into `CFG0` or `CORR`. -/
def Obligations.StepKeepsRegistersLegal : Prop :=
  ∀ (s t : State), RegsLegal s → step s = .next t → RegsLegal t

/-- 10 R23: the bits of `ERR_CODE` above `ERR_W - 1` stay zero, for every value of `ERR_W` and whatever the transport answers;
and so do those of every code on record (how a code is carried is the model's choice, assumption log 2). -/
def Obligations.StepKeepsErrorCodeWidth : Prop :=
  ∀ (s t : State), ErrLegal s → step s = .next t → ErrLegal t

/-- 10 R23, 60 R183, R191: while `STATUS.XERR` is 0 `ERR_CODE` has its reset value, and in `ABORTED` the flag is set. -/
def Obligations.StepKeepsAbortRecorded : Prop :=
  ∀ (s t : State), AbortRecorded s → step s = .next t → AbortRecorded t

/-- The three invariants hold after reset. -/
def Obligations.InvariantsHoldAtReset : Prop :=
  RegsLegal State.reset ∧ ErrLegal State.reset ∧ AbortRecorded State.reset

/-- 00 R9, 30 R64, 70 R214: a state whose registers hold no reserved value always has a next state, but for the one stop of
a transport that never answers, which the stop `transportSilent` stands for (the model's choice, assumption log 8); nothing is
refused as unmodelled. -/
def Obligations.LegalStateStopsOnlyOnSilentTransport : Prop :=
  ∀ (s : State), RegsLegal s →
    (∃ t, step s = .next t) ∨ (step s = .fault .transportSilent ∧ StuckOnTransport s)

/-! ## Rules about every command -/

/-- 30 R64, 20 R50: a command produces exactly one response after all its effects, unless one of its beats is never
answered: then it produces none and stays in progress. This rests on the model's choice that one step is one command, so that
reset lands between commands or at an unanswered beat only (assumption log 9): 70 R201 lets a reset at another moment drop the
response. -/
def Obligations.OneResponsePerCommand : Prop :=
  ∀ (i : Instr) (s t : State), s.waiting = false → exec i s = .next t →
    (t.waiting = false ∧ ∃ r, t.responses = s.responses ++ [r]) ∨ (t.waiting = true ∧ t.responses = s.responses)

/-- 20 R45: no step takes back or repeats a beat or a response: the beats a step adds are a first part of those the command it
runs is to present, in order and each once; any other step adds none; a response is added at most once. -/
def Obligations.PortRecordsOnlyGrow : Prop :=
  ∀ (s t : State), step s = .next t →
    (∃ bs : List Beat, t.tx = s.tx ++ bs ∧
      (bs ≠ [] → ∃ i, OffersFirst i s ∧ (bs.map fun b => (b.byte, b.last)) <+: planned i s)) ∧
    (∃ rs, t.responses = s.responses ++ rs ∧ rs.length ≤ 1)

/-- 10 R14, R15: how each command moves the sequencer, for every command that gives a next state. -/
def Obligations.SequencerMoves : Prop :=
  ∀ (i : Instr) (s t : State), exec i s = .next t →
    (i = .beginFrame → t.n = 0 ∧ (t.st = .framing ∨ t.st = .aborted ∨ (t.st = s.st ∧ t.waiting = true))) ∧
    (isPixel i = true → (t.st = s.st ∧ t.n = s.n) ∨ (t.st = .aborted ∧ t.n = s.n) ∨
      (s.st = .framing ∧ t.st = .framing ∧ t.n.toNat = s.n.toNat + 1)) ∧
    (i = .endFrame → t.n = s.n ∧ (t.st = s.st ∨ (s.st = .framing ∧ (t.st = .ended ∨ t.st = .aborted)))) ∧
    (i ≠ .beginFrame → isPixel i = false → i ≠ .endFrame → t.st = s.st ∧ t.n = s.n)

/-- 60 R191: `ABORTED` is left only by `BEGIN` or reset. -/
def Obligations.AbortedLeftOnlyByBeginOrReset : Prop :=
  ∀ (s t : State), s.st = .aborted → step s = .next t → t.st ≠ .aborted →
    ResetFirst s ∨ OffersFirst .beginFrame s

/-- 10 R16, 70 R200: only reset clears a sticky flag. -/
def Obligations.FlagsClearedOnlyByReset : Prop :=
  ∀ (s t : State), step s = .next t → ¬ ResetFirst s →
    (s.xerr = true → t.xerr = true) ∧ (s.proto = true → t.proto = true) ∧ (s.ill = true → t.ill = true) ∧
    (s.ovf = true → t.ovf = true)

/-- 10 R16: each sticky flag is set when a command completes with the matching response code, and only then. -/
def Obligations.FlagsSetByMatchingResponse : Prop :=
  ∀ (i : Instr) (s t : State) (r : Response), exec i s = .next t → t.responses = s.responses ++ [r] →
    t.xerr = (s.xerr || r.code == .xerr) ∧ t.proto = (s.proto || r.code == .proto) ∧
    t.ill = (s.ill || r.code == .illegal) ∧ t.ovf = (s.ovf || r.code == .ovf)

/-- 70 R200, R213, 20 R53: a configuration register changes only by reset or by a `CFGWR` outside `FRAMING`. -/
def Obligations.ConfigChangedOnlyByCfgwrOrReset : Prop :=
  ∀ (s t : State), step s = .next t →
    (t.cfg0 ≠ s.cfg0 ∨ t.endCount ≠ s.endCount ∨ t.ledCount ≠ s.ledCount ∨ t.corr ≠ s.corr) →
    ResetFirst s ∨ (s.st ≠ .framing ∧ ∃ i, isCfgwr i = true ∧ OffersFirst i s)

/-- 10 R11, R12, R27, 92 D23: the working registers, the latch, `FB`, `BI` and `EC` carry nothing from one command to the
next: whatever they hold, a command does the same to everything else. -/
def Obligations.WorkingRegistersCarryNothing : Prop :=
  ∀ (i : Instr) (s : State) (w : Work) (fb : FrameBuf) (bi : Nat) (ec : Word),
    through hideWorking (exec i { s with w := w, fb := fb, bi := bi, ec := ec }) = through hideWorking (exec i s)

/-- 10 R16: nothing in the block reads a sticky flag; only `CFGRD` of `STATUS` shows them. -/
def Obligations.FlagsReadByNothing : Prop :=
  ∀ (i : Instr) (s : State) (x p l o : Bool), i ≠ .cfgrd 4 →
    through hideFlags (exec i { s with xerr := x, proto := p, ill := l, ovf := o }) = through hideFlags (exec i s)

/-- 30 R62, 10 R14: compute commands and `CFGRD` present no beat, never touch the sequencer and change no register: beyond
their response they change the working registers and, when refused, `STATUS.ILL`. -/
def Obligations.ComputeAndReadCommandsFrame : Prop :=
  ∀ (i : Instr) (s t : State), (isCompute i = true ∨ ∃ idx, i = .cfgrd idx) → exec i s = .next t →
    t = { s with w := t.w, ill := t.ill, responses := t.responses }

/-! ## Refusals -/

/-- 44 R146, 60 R185: outside a frame write a pixel command or `END` is refused with `PROTO` and nothing else changes. -/
def Obligations.FrameCommandsRefusedOutsideFrameWrite : Prop :=
  ∀ (i : Instr) (s : State), (isPixel i = true ∨ i = .endFrame) → (s.st = .idle ∨ s.st = .ended) →
    exec i s = .next { s with proto := true, responses := s.responses ++ [⟨.proto, 0⟩] }

/-- 44 R146, 60 R185, R191: in `ABORTED` a pixel command or `END` is discarded: only the response. -/
def Obligations.FrameCommandsFlushedWhenAborted : Prop :=
  ∀ (i : Instr) (s : State), (isPixel i = true ∨ i = .endFrame) → s.st = .aborted →
    exec i s = .next { s with responses := s.responses ++ [⟨.flushed, 0⟩] }

/-- 44 R147, 60 R186: a pixel command admitted in `FRAMING` at `seq.N` = 2^32 - 1 is refused with `OVF`: no beat, `seq`
unchanged. -/
def Obligations.PixelRefusedAtCountMaximum : Prop :=
  ∀ (i : Instr) (s : State), isPixel i = true → s.st = .framing → s.n.toNat = 2 ^ 32 - 1 →
    exec i s = .next { s with ovf := true, responses := s.responses ++ [⟨.ovf, 0⟩] }

/-- 70 R213, 44 R146: a legal `CFGWR` during a frame write is refused with `PROTO`; the configuration does not change. -/
def Obligations.CfgwrRefusedDuringFrameWrite : Prop :=
  ∀ (idx : BitVec 4) (val : Word) (s : State), (Instr.cfgwr idx val).wellFormed = true → s.st = .framing →
    exec (.cfgwr idx val) s = .next { s with proto := true, responses := s.responses ++ [⟨.proto, 0⟩] }

/-- 10 R25: indices 7 to 15 are refused with `ILLEGAL` and have no other effect, read or written. -/
def Obligations.ReservedIndicesRefused : Prop :=
  ∀ (idx : BitVec 4) (val : Word) (s : State), 7 ≤ idx.toNat →
    exec (.cfgrd idx) s = .next { s with ill := true, responses := s.responses ++ [⟨.illegal, 0⟩] } ∧
    exec (.cfgwr idx val) s = .next { s with ill := true, responses := s.responses ++ [⟨.illegal, 0⟩] }

/-! ## Register commands -/

/-- 45 R171: outside `FRAMING` a legal `CFGWR` writes the register its index names, and nothing else. -/
def Obligations.CfgwrWritesRegister : Prop :=
  ∀ (val : Word) (s : State), s.st ≠ .framing →
    (val.toNat < 256 → val.toNat % 8 ≤ 5 →
      exec (.cfgwr 0 val) s = .next { s with cfg0 := val, responses := s.responses ++ [⟨.ok, 0⟩] }) ∧
    exec (.cfgwr 1 val) s = .next { s with endCount := val, responses := s.responses ++ [⟨.ok, 0⟩] } ∧
    exec (.cfgwr 2 val) s = .next { s with ledCount := val, responses := s.responses ++ [⟨.ok, 0⟩] } ∧
    (val.toNat < 2 ^ 24 →
      exec (.cfgwr 3 val) s = .next { s with corr := val, responses := s.responses ++ [⟨.ok, 0⟩] })

/-- 45 R172, 10 R17 to R24: in every state `CFGRD` of 0 to 6 responds with the register's value and changes nothing; the bits of
`ERR_CODE` above `ERR_W - 1` read as zero. -/
def Obligations.CfgrdReadsRegister : Prop :=
  ∀ (s : State),
    exec (.cfgrd 0) s = .next { s with responses := s.responses ++ [⟨.ok, s.cfg0⟩] } ∧
    exec (.cfgrd 1) s = .next { s with responses := s.responses ++ [⟨.ok, s.endCount⟩] } ∧
    exec (.cfgrd 2) s = .next { s with responses := s.responses ++ [⟨.ok, s.ledCount⟩] } ∧
    exec (.cfgrd 3) s = .next { s with responses := s.responses ++ [⟨.ok, s.corr⟩] } ∧
    exec (.cfgrd 4) s = .next { s with responses := s.responses ++ [⟨.ok, statusWord s⟩] } ∧
    exec (.cfgrd 5) s =
      .next { s with responses := s.responses ++ [⟨.ok, BitVec.ofNat 32 (s.errCode.toNat % 2 ^ Config.errW)⟩] } ∧
    exec (.cfgrd 6) s = .next { s with responses := s.responses ++ [⟨.ok, s.n⟩] }

/-- 10 R22, R13: the bits of `STATUS`; it is 0 after reset, and a `CFGWR` to it is refused with `ILLEGAL`. -/
def Obligations.StatusBits : Prop :=
  (∀ (s : State),
    (statusWord s).toNat =
      (match s.st with | .idle => 0 | .framing => 1 | .ended => 2 | .aborted => 3)
        + 4 * s.xerr.toNat + 8 * s.proto.toNat + 16 * s.ill.toNat + 32 * s.ovf.toNat ∧
    exec (.cfgrd 4) s = .next { s with responses := s.responses ++ [⟨.ok, statusWord s⟩] } ∧
    ∀ val : Word, exec (.cfgwr 4 val) s = .next { s with ill := true, responses := s.responses ++ [⟨.illegal, 0⟩] }) ∧
  statusWord State.reset = 0

/-! ## Compute commands -/

/-- 40 R94, 20 R41: `GAMMA` responds with the ROM entry, in every state, and changes nothing. -/
def Obligations.GammaReadsTable : Prop :=
  ∀ (i : Byte) (s : State),
    ∃ p : Word, exec (.gamma i) s = .next { s with responses := s.responses ++ [⟨.ok, p⟩] } ∧
      p.toNat = (Config.gamma i).toNat

/-- 40 R91, R92: what the spec states of the table, true of it whatever its entries are, and what the bounds say of the entries
beside the three. -/
def Obligations.GammaTableAsStated : Prop :=
  (∀ i j : Byte, i < j → Config.gamma i ≤ Config.gamma j) ∧
  0xFE80 ≤ Config.gamma 255 ∧
  0x2980 ≤ Config.gamma 127 ∧ Config.gamma 127 ≤ 0x2A7F ∧
  0x0280 ≤ Config.gamma 43 ∧ Config.gamma 43 ≤ 0x037F ∧
  (∀ i : Byte, i ≤ 43 → Config.gamma i ≤ 0x037F) ∧ (∀ i : Byte, 127 ≤ i → 0x2980 ≤ Config.gamma i)

/-- 41 R100, R101(e): `SCALE`'s payload is 0 for scale 0 and `value * (scale + 1) / 256`, exactly, otherwise. -/
def Obligations.ScaleResult : Prop :=
  ∀ (val : Half) (sc : Byte) (s : State),
    ∃ p : Word, exec (.scale val sc) s = .next { s with responses := s.responses ++ [⟨.ok, p⟩] } ∧
      p.toNat = (if sc.toNat = 0 then 0 else val.toNat * (sc.toNat + 1) / 256)

/-- 41 R101: the laws (a) to (g) of `scale16by8`; (f) for shifts of the scale up to 7, as at 8 the scale is 0 and (d) applies. -/
def Obligations.ScaleLaws : Prop :=
  (∀ (x : Half) (c : Byte), x.toNat * (c.toNat + 1) < 2 ^ 24) ∧
  (∀ (x : Half) (c : Byte), scale16by8 x c ≤ x) ∧
  (∀ x : Half, scale16by8 x 255 = x) ∧
  (∀ x : Half, scale16by8 x 0 = 0) ∧
  (∀ (x : Half) (c : Byte), 1 ≤ c → (scale16by8 x c).toNat = x.toNat * (c.toNat + 1) / 256) ∧
  (∀ i j : Nat, i ≤ 8 → j ≤ 7 → scale16by8 (0xFFFF#16 >>> i) (0xFF#8 >>> j) = 0xFFFF#16 >>> (i + j)) ∧
  (∀ (x y : Half) (c : Byte), x ≤ y → scale16by8 x c ≤ scale16by8 y c) ∧
  (∀ (x : Half) (c d : Byte), c ≤ d → scale16by8 x c ≤ scale16by8 x d)

/-- 41 R103, R104(a): `MAP`'s payload is `min(255, (value + 128) / 256)`. -/
def Obligations.MapResult : Prop :=
  ∀ (val : Half) (s : State),
    ∃ p : Word, exec (.map val) s = .next { s with responses := s.responses ++ [⟨.ok, p⟩] } ∧
      p.toNat = min 255 ((val.toNat + 128) / 256)

/-- 41 R104: the laws (a) to (e) of `map16_to_8`: its closed form, monotonicity, the preimage of each output, the source's points
and the boundary points. -/
def Obligations.MapLaws : Prop :=
  (∀ v : Half, (map16to8 v).toNat = min 255 ((v.toNat + 128) / 2 ^ 8)) ∧
  (∀ v u : Half, v ≤ u → map16to8 v ≤ map16to8 u) ∧
  (∀ (v : Half) (k : Byte), map16to8 v = k ↔
    (if k.toNat = 0 then v.toNat ≤ 127
     else if k.toNat = 255 then 65152 ≤ v.toNat
     else 256 * k.toNat - 128 ≤ v.toNat ∧ v.toNat ≤ 256 * k.toNat + 127)) ∧
  (map16to8 0xFFFF = 0xFF ∧ map16to8 0 = 0 ∧ map16to8 49151 = 192 ∧ map16to8 26214 = 102) ∧
  (map16to8 127 = 0 ∧ map16to8 128 = 1 ∧ map16to8 0xFE7F = 254 ∧ map16to8 0xFE80 = 255 ∧ map16to8 0xFF00 = 255 ∧
    map16to8 0xFF7F = 255 ∧ map16to8 0xFF80 = 255)

/-- 42 R110, R111 (a), (b), (c): `BSHIFT8` shifts `n` times, `n` the first count at which a condition of the loop fails (0 when
an input is 0); no set bit of the destination is lost. -/
def Obligations.Bshift8Result : Prop :=
  ∀ (src dst max : Byte) (s : State),
    ∃ n : Nat,
      exec (.bshift8 src dst max) s =
        .next { s with
        responses := s.responses ++ [⟨.ok, BitVec.ofNat 32 (n * 2 ^ 16 + src.toNat / 2 ^ n * 2 ^ 8 + dst.toNat * 2 ^ n)⟩] } ∧
      n ≤ max.toNat ∧ n ≤ 7 ∧ dst.toNat * 2 ^ n < 2 ^ 8 ∧
      (∀ k < n, src.toNat ≠ 0 ∧ dst.toNat ≠ 0 ∧ 1 < src.toNat / 2 ^ k ∧ dst.toNat * 2 ^ k < 2 ^ 7) ∧
      (src.toNat = 0 ∨ dst.toNat = 0 ∨ n = max.toNat ∨ src.toNat / 2 ^ n ≤ 1 ∨ 2 ^ 7 ≤ dst.toNat * 2 ^ n)

/-- 42 R111: the laws (a) to (e) of `bshift8`. -/
def Obligations.Bshift8Laws : Prop :=
  bshift8 3 1 4 = ⟨1, 2, 1⟩ ∧
  ∀ (src dst max : Byte),
    let p := bshift8 src dst max
    p.dst.toNat = dst.toNat * 2 ^ p.cnt.toNat ∧ p.src.toNat = src.toNat / 2 ^ p.cnt.toNat ∧
    p.cnt.toNat ≤ min max.toNat 7 ∧
    (src = 0 ∨ dst = 0 → p.cnt = 0 ∧ p.src = src ∧ p.dst = dst) ∧
    (∀ k : Nat, src.toNat = 2 ^ k → p.src.toNat * p.dst.toNat = src.toNat * dst.toNat) ∧
    (p.src.toNat * p.dst.toNat = src.toNat * dst.toNat ↔ src.toNat % 2 ^ p.cnt.toNat = 0)

/-- 42 R113, R115 (a), (b), (c): `BSHIFT16` with `STEPS` 1 or 2 shifts `n` times, `n` the first count at which a condition of
the loop fails (0 when an input is 0); no set bit is lost on either side. -/
def Obligations.Bshift16Result : Prop :=
  ∀ (src : Byte) (dst : Half) (max steps : Byte) (s : State), steps = 1 ∨ steps = 2 →
    ∃ n : Nat,
      exec (.bshift16 src dst max steps) s =
        .next { s with
        responses := s.responses ++ [⟨.ok, BitVec.ofNat 32 (n * 2 ^ 24 + src.toNat / 2 ^ n * 2 ^ 16 + dst.toNat * 2 ^ (n * steps.toNat))⟩] } ∧
      n ≤ max.toNat ∧ n ≤ 7 ∧ src.toNat / 2 ^ n * 2 ^ n = src.toNat ∧ dst.toNat * 2 ^ (n * steps.toNat) < 2 ^ 16 ∧
      (∀ k < n, src.toNat ≠ 0 ∧ dst.toNat ≠ 0 ∧ src.toNat / 2 ^ k % 2 = 0 ∧
        dst.toNat * 2 ^ (k * steps.toNat + steps.toNat) < 2 ^ 16) ∧
      (src.toNat = 0 ∨ dst.toNat = 0 ∨ n = max.toNat ∨ src.toNat / 2 ^ n % 2 = 1 ∨
        2 ^ 16 ≤ dst.toNat * 2 ^ (n * steps.toNat + steps.toNat))

/-- 42 R115: the laws (a) to (e) of `bshift16`. -/
def Obligations.Bshift16Laws : Prop :=
  ∀ (src : Byte) (dst : Half) (max steps : Byte), steps = 1 ∨ steps = 2 →
    let p := bshift16 src dst max steps
    p.dst.toNat = dst.toNat * 2 ^ (p.cnt.toNat * steps.toNat) ∧
    src.toNat = p.src.toNat * 2 ^ p.cnt.toNat ∧
    p.cnt.toNat ≤ min max.toNat 7 ∧ p.cnt.toNat * steps.toNat ≤ 15 ∧
    (src = 0 ∨ dst = 0 → p.cnt = 0 ∧ p.src = src ∧ p.dst = dst) ∧
    p.src.toNat * p.dst.toNat = src.toNat * dst.toNat * 2 ^ (p.cnt.toNat * (steps.toNat - 1)) ∧
    ∀ v : Nat, src.toNat * v = p.src.toNat * (v * 2 ^ p.cnt.toNat)

/-- 43 R121, R123, R124: `ENCLIN16`, run by the shift loops, responds with the closed form, in every state; beyond its response
it changes only the working registers. -/
def Obligations.Enclin16Result : Prop :=
  ∀ (brt : Byte) (r g b : Half) (s : State),
    ∃ w : Work, exec (.enclin16 brt r g b) s =
      .next { s with
        w := w
        responses := s.responses ++ [⟨.ok, (encLinN r.toNat g.toNat b.toNat brt.toNat).packed⟩] }

/-- 43 R123: step 3 in closed form, of the accumulator and the brightness register it leaves, whatever they held before; their
product is 16 times the brightness, and `w.BR` is at least 16 and is 255 only for brightness 255. The accumulator is the source
of the bitshifter's call and the brightness its destination (R121, 90 C1). -/
def Obligations.EncoderStepThreeClosedForm : Prop :=
  ∀ (brt : Byte) (w : Work), brt ≠ 0 →
    let v := encStep3 brt w
    v.acc.toNat = 16 / 2 ^ shiftOne brt.toNat ∧
    v.br.toNat = brt.toNat * 2 ^ shiftOne brt.toNat ∧
    v.acc.toNat * v.br.toNat = 16 * brt.toNat ∧
    16 ≤ v.br.toNat ∧ (v.br = 255 ↔ brt = 255) ∧
    v.acc = (bshift8 16 brt 4).src ∧ v.br = (bshift8 16 brt 4).dst

/-- 43 R124, R125: step 4 in closed form for every accumulator step 3 can leave; the channel shifts lose no bit. -/
def Obligations.EncoderStepFourClosedForm : Prop :=
  ∀ (brt : Byte) (r g b : Half) (w : Work), brt ≠ 0 → (r ≠ 0 ∨ g ≠ 0 ∨ b ≠ 0) →
    let v := encStep4 r g b (encStep3 brt w)
    let m := max r.toNat (max g.toNat b.toNat)
    v.maxc.toNat = m ∧ v.sh.toNat = min (4 - shiftOne brt.toNat) (headroom m) ∧
    v.acc.toNat = 16 / 2 ^ (shiftOne brt.toNat + v.sh.toNat) ∧ shiftOne brt.toNat + v.sh.toNat ≤ 4 ∧
    m * 2 ^ (2 * v.sh.toNat) ≤ 0xFFFF ∧ m * 2 ^ v.sh.toNat ≤ 0xFFFF ∧
    r.toNat ≤ m ∧ g.toNat ≤ m ∧ b.toNat ≤ m ∧
    v.r16.toNat = r.toNat * 2 ^ v.sh.toNat ∧ v.g16.toNat = g.toNat * 2 ^ v.sh.toNat ∧
    v.b16.toNat = b.toNat * 2 ^ v.sh.toNat

/-- 43 R128: the result's brightness: 0 for brightness 0; `min(brightness, 31)`, so 1 to 31, for a black colour; else one of 31, 15,
7, 3, 1, as the accumulator before step 6 is 16, 8, 4, 2, 1; the mask of 30 R73 never alters it. -/
def Obligations.EncoderBrightnessRange : Prop :=
  ∀ (r g b : Half) (brt : Byte) (w : Work),
    (brt = 0 → (encLin16 r g b brt w).out.brt = 0) ∧
    (brt ≠ 0 → r = 0 → g = 0 → b = 0 →
      (encLin16 r g b brt w).out.brt.toNat = min brt.toNat 31 ∧ 1 ≤ (encLin16 r g b brt w).out.brt) ∧
    (brt ≠ 0 → (r ≠ 0 ∨ g ≠ 0 ∨ b ≠ 0) →
      ∃ t : Nat, (encStep4 r g b (encStep3 brt w)).acc.toNat = 16 / 2 ^ t ∧
        [31, 15, 7, 3, 1][t]? = some (encLin16 r g b brt w).out.brt.toNat) ∧
    (brightnessByte ((encLin16 r g b brt w).out.brt.setWidth 8)).toNat = 0xE0 + (encLin16 r g b brt w).out.brt.toNat

/-- 43 R126: exchanging two channels of the input exchanges the same two of the output. -/
def Obligations.EncoderTreatsChannelsAlike : Prop :=
  ∀ (r g b : Half) (brt : Byte) (w : Work) (d e f h : DeviceColor),
    (encLin16 r g b brt w).out = d → (encLin16 g r b brt w).out = e → (encLin16 r b g brt w).out = f →
    (encLin16 b g r brt w).out = h →
    e = ⟨d.grn, d.red, d.blu, d.brt⟩ ∧ f = ⟨d.red, d.blu, d.grn, d.brt⟩ ∧ h = ⟨d.blu, d.grn, d.red, d.brt⟩

/-- 43 R122: `ENCPERC8` responds with the encoding of the gamma-expanded, corrected colour, for every table; the correction is
the word's, never the registers'. -/
def Obligations.Encperc8Result : Prop :=
  ∀ (brt r g b : Byte) (cp : Bool) (cr cg cb : Byte) (s : State), (cp = true ∨ (cr = 0 ∧ cg = 0 ∧ cb = 0)) →
    ∃ w : Work, exec (.encperc8 brt r g b cp cr cg cb) s =
      .next { s with
        w := w
        responses := s.responses ++ [⟨.ok, (encPercN r g b brt.toNat (if cp then some ⟨cr, cg, cb⟩ else none)).packed⟩] }

/-- 40 R92, 43 R122, 95 S7: the source's own example: it comes out exactly for the channels the three bounds allow, so for every
table the spec allows. -/
def Obligations.WorkedExampleForEveryTable : Prop :=
  (∀ (r g b : Half) (w : Work), (encLin16 r g b 255 w).out = ⟨255, 42, 3, 31⟩ ↔
    0xFE80 ≤ r ∧ 0x2980 ≤ g ∧ g ≤ 0x2A7F ∧ 0x0280 ≤ b ∧ b ≤ 0x037F) ∧
  (∀ (s : State), ∃ w : Work, exec (.encperc8 255 255 127 43 false 0 0 0) s =
    .next { s with w := w, responses := s.responses ++ [⟨.ok, 0x1FFF2A03⟩] })

/-! ## Frame commands -/

/-- 44 R141, R152: `BEGIN` in every state, the transport answering `OK`: the start frame, then `FRAMING` with the count 0. -/
def Obligations.BeginCompletes : Prop :=
  ∀ (s : State) (rest : List Answer), s.answers = List.replicate 4 .ok ++ rest →
    ∃ bi : Nat, exec .beginFrame s =
      .next { s with
        st := .framing
        n := 0
        bi := bi
        answers := rest
        responses := s.responses ++ [⟨.ok, 0⟩]
        tx := s.tx ++ [⟨0, false, .ok⟩, ⟨0, false, .ok⟩, ⟨0, false, .ok⟩, ⟨0, true, .ok⟩] }

/-- 44 R142, R148, 30 R72, R73: `PIXDEV` in `FRAMING`: four beats, the brightness masked to five bits, the channels in the
configured order; then the count is one more. -/
def Obligations.PixdevCompletes : Prop :=
  ∀ (brt red grn blu : Byte) (s : State) (rest : List Answer),
    RegsLegal s → s.st = .framing → s.n ≠ 0xFFFFFFFF → s.answers = List.replicate 4 .ok ++ rest →
    ∃ (bi : Nat) (fb : FrameBuf), exec (.pixdev brt red grn blu) s =
      .next { s with
        n := s.n + 1
        bi := bi
        fb := fb
        answers := rest
        responses := s.responses ++ [⟨.ok, 0⟩]
        tx := s.tx ++ okBeats (seg (pixelBytes s.cfg0 brt red grn blu)) }

/-- 44 R143: `PIXLIN16` in `FRAMING`: the frame of the encoder's closed form. -/
def Obligations.Pixlin16Completes : Prop :=
  ∀ (brt : Byte) (r g b : Half) (s : State) (rest : List Answer),
    RegsLegal s → s.st = .framing → s.n ≠ 0xFFFFFFFF → s.answers = List.replicate 4 .ok ++ rest →
    ∃ (w : Work) (bi : Nat) (fb : FrameBuf), exec (.pixlin16 brt r g b) s =
      .next { s with
        n := s.n + 1
        w := w
        bi := bi
        fb := fb
        answers := rest
        responses := s.responses ++ [⟨.ok, 0⟩]
        tx := s.tx ++ okBeats (seg (pixelBytesN s.cfg0 (encLinN r.toNat g.toNat b.toNat brt.toNat))) }

/-- 44 R144: `PIXPERC8` in `FRAMING`: the frame of the perceptual encoder's closed form, with the registers' correction. -/
def Obligations.Pixperc8Completes : Prop :=
  ∀ (brt r g b : Byte) (s : State) (rest : List Answer),
    RegsLegal s → s.st = .framing → s.n ≠ 0xFFFFFFFF → s.answers = List.replicate 4 .ok ++ rest →
    ∃ (w : Work) (bi : Nat) (fb : FrameBuf), exec (.pixperc8 brt r g b) s =
      .next { s with
        n := s.n + 1
        w := w
        bi := bi
        fb := fb
        answers := rest
        responses := s.responses ++ [⟨.ok, 0⟩]
        tx := s.tx ++ okBeats (seg (pixelBytesN s.cfg0 (encPercN r g b brt.toNat (frameCorrection s)))) }

/-- 44 R143: `PIXLIN16` has the same effect as `PIXDEV` with the four bytes of the `ENCLIN16` payload, in every state (the
working registers apart). -/
def Obligations.Pixlin16IsPixdevOfEnclin16 : Prop :=
  ∀ (brt : Byte) (r g b : Half) (s t : State) (p : Word),
    exec (.enclin16 brt r g b) s = .next t → t.responses = s.responses ++ [⟨.ok, p⟩] →
    through hideWork (exec (.pixlin16 brt r g b) s) =
      through hideWork (exec (.pixdev (p.extractLsb' 24 8) (p.extractLsb' 16 8) (p.extractLsb' 8 8) (p.extractLsb' 0 8)) s)

/-- 44 R145, R148, R149: `END` in `FRAMING`: the reset frame if enabled, then the end frame as one segment of the length and
fill the configuration gives; then `ENDED`, the count unchanged. -/
def Obligations.EndCompletes : Prop :=
  ∀ (s : State) (rest : List Answer), s.st = .framing →
    s.answers = List.replicate (endBeats s s.n.toNat).length .ok ++ rest →
    ∃ (bi : Nat) (ec : Word), exec .endFrame s =
      .next { s with
        st := .ended
        bi := bi
        ec := ec
        answers := rest
        responses := s.responses ++ [⟨.ok, 0⟩]
        tx := s.tx ++ okBeats (endBeats s s.n.toNat) }

/-- 60 R183, R181, 44 R140, 10 R23: the first beat of a frame command answered `ERR(e)` ends it: that beat is the last presented,
the code of `ERR_W` bits is latched and returned zero-extended, `STATUS.XERR` is set, the sequencer is `ABORTED`, and no update
the command places after that beat happens. For a word with a bit above `ERR_W - 1`, which is no code of the spec's, that the code
is its low `ERR_W` bits is the model's choice (assumption log 2). -/
def Obligations.TransportErrorAborts : Prop :=
  ∀ (i : Instr) (s : State) (k : Nat) (e : Word) (p : Byte × Bool) (rest : List Answer),
    RegsLegal s → Executes i s → (planned i s)[k]? = some p →
    s.answers = List.replicate k .ok ++ .err e :: rest →
    ∃ (z : Word) (w : Work) (bi : Nat) (ec : Word) (fb : FrameBuf),
      z.toNat = e.toNat % 2 ^ Config.errW ∧ (e.toNat < 2 ^ Config.errW → z = e) ∧
      exec i s =
      .next { s with
        st := .aborted
        n := startCount i s
        xerr := true
        errCode := z
        w := w
        bi := bi
        ec := ec
        fb := fb
        answers := rest
        responses := s.responses ++ [⟨.xerr, z⟩]
        tx := s.tx ++ okBeats ((planned i s).take k) ++ [answered (.err z) p] }

/-- 20 R46, 70 R214: a beat that is never answered (the transport's list says so, or ends: the model's
choice, assumption log 6) leaves the command in progress: that
beat is the last presented, there is no response, and no update the command places after it happens. -/
def Obligations.SilentTransportStalls : Prop :=
  ∀ (i : Instr) (s : State) (k : Nat) (p : Byte × Bool) (rest : List Answer),
    RegsLegal s → Executes i s → (planned i s)[k]? = some p →
    (s.answers = List.replicate k .ok ++ .silent :: rest ∨ (s.answers = List.replicate k .ok ∧ rest = [])) →
    ∃ (w : Work) (bi : Nat) (ec : Word) (fb : FrameBuf), exec i s =
      .next { s with
        waiting := true
        n := startCount i s
        w := w
        bi := bi
        ec := ec
        fb := fb
        answers := rest
        tx := s.tx ++ okBeats ((planned i s).take k) ++ [answered .silent p] }

/-- 44 R150, R151: a whole frame write of any list of converted pixels presents exactly the start frame, the pixel frames in
order, the reset frame if enabled, and the end frame for their number; every response is (OK, 0). -/
def Obligations.WholeFrameWrite : Prop :=
  ∀ (s : State) (px : List (Byte × Byte × Byte × Byte)), RegsLegal s → px.length < 2 ^ 32 →
    (frameBeats s px).length = 4 + 4 * px.length + (if resetEn s.cfg0 then 4 else 0) + endCount s px.length ∧
    ∀ rest : List Answer, s.answers = List.replicate (frameBeats s px).length .ok ++ rest →
      ∃ (bi : Nat) (ec : Word) (fb : FrameBuf), execAll (frameWrite px) s =
        some { s with
          st := .ended
          n := BitVec.ofNat 32 px.length
          bi := bi
          ec := ec
          fb := fb
          answers := rest
          responses := s.responses ++ List.replicate (px.length + 2) ⟨.ok, 0⟩
          tx := s.tx ++ okBeats (frameBeats s px) }
end

