-- ==== Sys2Proof/Laws/Encoding.lean ====
section
/-! SUPPORT. Fields of a command word: what `cmdField` reads of a word put together by `putField`, and what a mask leaves of it
(spec 30 R61 to R65). -/

namespace Sys2Proof.Laws

open Sys2Proof

theorem cmdField_or (lo len : Nat) (a b : Cmd) : cmdField lo len (a ||| b) = cmdField lo len a ||| cmdField lo len b := by
  ext i h
  simp [cmdField]

/-- A field reads back at its own place. -/
theorem cmdField_putField {len : Nat} (lo : Nat) (f : BitVec len) (h : lo + len ≤ 64) :
    cmdField lo len (putField lo f) = f := by
  ext i hi
  have h1 : lo + i < 64 := by omega
  simp [cmdField, putField, h1, BitVec.getLsbD_eq_getElem hi]

/-- A field leaves nothing at a place apart from its own. -/
theorem cmdField_putField_apart {n : Nat} (lo len lo' : Nat) (f : BitVec n) (h : lo + len ≤ lo' ∨ lo' + n ≤ lo) :
    cmdField lo len (putField lo' f) = 0 := by
  ext i hi
  simp only [cmdField, putField, BitVec.getElem_extractLsb', BitVec.getLsbD_shiftLeft, BitVec.getLsbD_setWidth]
  by_cases hlt : lo + i < lo'
  · simp [hlt]
  · rw [BitVec.getLsbD_of_ge f _ (by omega)]
    simp

theorem or_and (a b m : Cmd) : (a ||| b) &&& m = a &&& m ||| b &&& m := by
  ext i hi
  simp [Bool.and_or_distrib_right]

/-- A mask that has no bit at a field's place leaves nothing of the field. -/
theorem putField_masked {n : Nat} (lo : Nat) (f : BitVec n) (m : Cmd) (h : cmdField lo n m = 0) :
    putField lo f &&& m = 0 := by
  ext i hi
  simp only [putField, BitVec.getElem_and, BitVec.getElem_shiftLeft]
  by_cases hlt : i < lo
  · simp [hlt]
  · by_cases hn : i - lo < n
    · have hb := congrArg (fun x : BitVec n => x.getLsbD (i - lo)) h
      have hs : lo + (i - lo) = i := by omega
      simp [cmdField, hn, hs, BitVec.getLsbD_eq_getElem hi] at hb
      simp [hb]
    · rw [BitVec.getElem_setWidth, BitVec.getLsbD_of_ge f _ (by omega)]
      simp

end Sys2Proof.Laws
end

