-- ==== Sys2Proof/Laws/Operands.lean ====
section
/-! SUPPORT. The error code's bits; and operand conditions: the checks the meanings make are those of `Instr.wellFormed`, written apart from them
(spec 30 R74). -/

namespace Sys2Proof.Laws

open Sys2Proof Sys2Proof.Machine

/-! ## The transport's error code (10 R23, 60 R183) -/

theorem errBits_toNat (e : Word) : (errBits e).toNat = e.toNat % 2 ^ Config.errW := by
  have := Nat.mod_le e.toNat (2 ^ Config.errW)
  have := e.isLt
  rw [errBits, BitVec.toNat_ofNat, Nat.mod_eq_of_lt (by omega)]

/-- No bit above `ERR_W - 1`. -/
theorem errBits_lt (e : Word) : (errBits e).toNat < 2 ^ Config.errW := by
  rw [errBits_toNat]
  exact Nat.mod_lt _ (Nat.two_pow_pos _)

/-- A code of `ERR_W` bits is itself. -/
theorem errBits_of_lt {e : Word} (h : e.toNat < 2 ^ Config.errW) : errBits e = e := by
  rw [← BitVec.toNat_inj, errBits_toNat, Nat.mod_eq_of_lt h]

@[simp] theorem errBits_errBits (e : Word) : errBits (errBits e) = errBits e := errBits_of_lt (errBits_lt e)

@[simp] theorem errBits_zero : errBits 0#32 = 0#32 := errBits_of_lt (Nat.two_pow_pos _)

/-! ## Operand conditions -/

/-- Every index of a register command, as R74 (e), (f) sort them. -/
theorem index_cases (idx : BitVec 4) :
    (7 ≤ idx ∨ idx = 4 ∨ idx = 5 ∨ idx = 6) ∧ idx ≠ 0 ∧ idx ≠ 1 ∧ idx ≠ 2 ∧ idx ≠ 3 ∨
    idx = 0 ∨ idx = 1 ∨ idx = 2 ∨ idx = 3 := by
  revert idx; decide

theorem ushiftRight_eq_zero_iff (v : Word) (k : Nat) : v >>> k = 0 ↔ v.toNat < 2 ^ k := by
  rw [← BitVec.toNat_inj, BitVec.toNat_ushiftRight, Nat.shiftRight_eq_div_pow]
  show v.toNat / 2 ^ k = 0 ↔ _
  rw [Nat.div_eq_zero_iff]
  have := Nat.two_pow_pos k
  omega

theorem chOrder_toNat (v : Word) : (chOrder v).toNat = v.toNat % 8 := by
  simp [chOrder]

/-- What the head of `CFGWR` lets through, over the natural numbers (45 R171). -/
theorem cfgwrLegal_iff (idx : BitVec 4) (val : Word) :
    cfgwrLegal idx val = true ↔
      (idx = 0 ∧ val.toNat < 256 ∧ val.toNat % 8 ≤ 5) ∨ idx = 1 ∨ idx = 2 ∨ (idx = 3 ∧ val.toNat < 2 ^ 24) := by
  have h8 := ushiftRight_eq_zero_iff val 8
  have h24 := ushiftRight_eq_zero_iff val 24
  have h6 : chOrder val = 6 ↔ val.toNat % 8 = 6 := by rw [← BitVec.toNat_inj, chOrder_toNat]; rfl
  have h7 : chOrder val = 7 ↔ val.toNat % 8 = 7 := by rw [← BitVec.toNat_inj, chOrder_toNat]; rfl
  unfold cfgwrLegal
  rcases index_cases idx with ⟨h, h0, h1, h2, h3⟩ | rfl | rfl | rfl | rfl
  · rw [if_pos h]
    simp_all
  · rw [if_neg (by decide)]
    simp only [ne_eq, h8, h6, h7]
    by_cases a : val.toNat < 2 ^ 8 <;> by_cases b : val.toNat % 8 = 6 <;> by_cases c : val.toNat % 8 = 7 <;>
      simp [b, c] <;> omega
  · simp
  · simp
  · rw [if_neg (by decide)]
    simpa using h24

/-- R74 (e) to (h) for a write. -/
theorem cfgwr_wellFormed_iff (idx : BitVec 4) (val : Word) :
    (Instr.cfgwr idx val).wellFormed = true ↔
      (idx = 0 ∧ val.toNat < 256 ∧ val.toNat % 8 ≤ 5) ∨ idx = 1 ∨ idx = 2 ∨ (idx = 3 ∧ val.toNat < 2 ^ 24) := by
  have h8 : val.extractLsb 31 8 = 0 ↔ val.toNat < 256 := by
    rw [← BitVec.toNat_inj, BitVec.extractLsb_toNat, Nat.shiftRight_eq_div_pow]
    simp only [BitVec.ofNat_eq_ofNat, BitVec.toNat_ofNat]
    omega
  have h24 : val.extractLsb 31 24 = 0 ↔ val.toNat < 2 ^ 24 := by
    rw [← BitVec.toNat_inj, BitVec.extractLsb_toNat, Nat.shiftRight_eq_div_pow]
    simp only [BitVec.ofNat_eq_ofNat, BitVec.toNat_ofNat]
    omega
  have hm : (val.extractLsb 2 0).toNat = val.toNat % 8 := by
    simp
  have h6 : val.extractLsb 2 0 = 6 ↔ val.toNat % 8 = 6 := by rw [← BitVec.toNat_inj, hm]; rfl
  have h7 : val.extractLsb 2 0 = 7 ↔ val.toNat % 8 = 7 := by rw [← BitVec.toNat_inj, hm]; rfl
  simp only [Instr.wellFormed, Bool.or_eq_true, Bool.and_eq_true, beq_iff_eq, bne_iff_ne, ne_eq, h8, h24, h6, h7]
  constructor
  · rintro (((⟨⟨⟨a, b⟩, c⟩, d⟩ | h) | h) | ⟨a, b⟩)
    · exact .inl ⟨a, b, by omega⟩
    · exact .inr (.inl h)
    · exact .inr (.inr (.inl h))
    · exact .inr (.inr (.inr ⟨a, b⟩))
  · rintro (⟨a, b, c⟩ | h | h | ⟨a, b⟩)
    · exact .inl (.inl (.inl ⟨⟨⟨a, b⟩, by omega⟩, by omega⟩))
    · exact .inl (.inl (.inr h))
    · exact .inl (.inr h)
    · exact .inr ⟨a, b⟩

theorem cfgwrLegal_eq (idx : BitVec 4) (val : Word) : cfgwrLegal idx val = (Instr.cfgwr idx val).wellFormed := by
  rw [Bool.eq_iff_iff, cfgwrLegal_iff, cfgwr_wellFormed_iff]

/-- R74 (e) for a read. -/
theorem regRead_eq_none_iff (idx : BitVec 4) (s : State) : regRead idx s = none ↔ (Instr.cfgrd idx).wellFormed = false := by
  have h : ∀ i : BitVec 4, i = 0 ∨ i = 1 ∨ i = 2 ∨ i = 3 ∨ i = 4 ∨ i = 5 ∨ i = 6 ∨ i = 7 ∨ i = 8 ∨ i = 9 ∨ i = 10 ∨ i = 11 ∨
      i = 12 ∨ i = 13 ∨ i = 14 ∨ i = 15 := by decide
  rcases h idx with rfl | rfl | rfl | rfl | rfl | rfl | rfl | rfl | rfl | rfl | rfl | rfl | rfl | rfl | rfl | rfl <;>
    simp [regRead, Instr.wellFormed]

theorem stepsLegal_eq (src : Byte) (dst : Half) (max steps : Byte) :
    stepsLegal steps = (Instr.bshift16 src dst max steps).wellFormed := by
  simp [stepsLegal, Instr.wellFormed, Bool.decide_or]
  rfl

theorem corrLegal_eq (brt r g b : Byte) (cp : Bool) (cr cg cb : Byte) :
    corrLegal cp cr cg cb = (Instr.encperc8 brt r g b cp cr cg cb).wellFormed := by
  cases cp <;> simp [corrLegal, Instr.wellFormed, Bool.decide_and, Bool.and_assoc]
  rfl

end Sys2Proof.Laws
end

