-- ==== Sys2Proof/Laws/State.lean ====
section
/-! SUPPORT. One lemma per field per named update of the state: what the update leaves there. Every one is true by rfl (for
`raise`, by cases on the exception), so that no proof need unfold an update. -/

namespace Sys2Proof.Machine

/-! ## `respond` -/

@[simp] theorem respond_st (code : RespCode) (payload : Word) (s : State) : (respond code payload s).st = s.st := rfl
@[simp] theorem respond_n (code : RespCode) (payload : Word) (s : State) : (respond code payload s).n = s.n := rfl
@[simp] theorem respond_cfg0 (code : RespCode) (payload : Word) (s : State) : (respond code payload s).cfg0 = s.cfg0 := rfl
@[simp] theorem respond_endCount (code : RespCode) (payload : Word) (s : State) : (respond code payload s).endCount = s.endCount := rfl
@[simp] theorem respond_ledCount (code : RespCode) (payload : Word) (s : State) : (respond code payload s).ledCount = s.ledCount := rfl
@[simp] theorem respond_corr (code : RespCode) (payload : Word) (s : State) : (respond code payload s).corr = s.corr := rfl
@[simp] theorem respond_xerr (code : RespCode) (payload : Word) (s : State) : (respond code payload s).xerr = s.xerr := rfl
@[simp] theorem respond_proto (code : RespCode) (payload : Word) (s : State) : (respond code payload s).proto = s.proto := rfl
@[simp] theorem respond_ill (code : RespCode) (payload : Word) (s : State) : (respond code payload s).ill = s.ill := rfl
@[simp] theorem respond_ovf (code : RespCode) (payload : Word) (s : State) : (respond code payload s).ovf = s.ovf := rfl
@[simp] theorem respond_errCode (code : RespCode) (payload : Word) (s : State) : (respond code payload s).errCode = s.errCode := rfl
@[simp] theorem respond_w (code : RespCode) (payload : Word) (s : State) : (respond code payload s).w = s.w := rfl
@[simp] theorem respond_fb (code : RespCode) (payload : Word) (s : State) : (respond code payload s).fb = s.fb := rfl
@[simp] theorem respond_bi (code : RespCode) (payload : Word) (s : State) : (respond code payload s).bi = s.bi := rfl
@[simp] theorem respond_ec (code : RespCode) (payload : Word) (s : State) : (respond code payload s).ec = s.ec := rfl
@[simp] theorem respond_waiting (code : RespCode) (payload : Word) (s : State) : (respond code payload s).waiting = s.waiting := rfl
@[simp] theorem respond_tx (code : RespCode) (payload : Word) (s : State) : (respond code payload s).tx = s.tx := rfl
@[simp] theorem respond_responses (code : RespCode) (payload : Word) (s : State) : (respond code payload s).responses = s.responses ++ [⟨code, payload⟩] := rfl
@[simp] theorem respond_host (code : RespCode) (payload : Word) (s : State) : (respond code payload s).host = s.host := rfl
@[simp] theorem respond_answers (code : RespCode) (payload : Word) (s : State) : (respond code payload s).answers = s.answers := rfl

/-! ## `setXerr` -/

@[simp] theorem setXerr_st (s : State) : (setXerr s).st = s.st := rfl
@[simp] theorem setXerr_n (s : State) : (setXerr s).n = s.n := rfl
@[simp] theorem setXerr_cfg0 (s : State) : (setXerr s).cfg0 = s.cfg0 := rfl
@[simp] theorem setXerr_endCount (s : State) : (setXerr s).endCount = s.endCount := rfl
@[simp] theorem setXerr_ledCount (s : State) : (setXerr s).ledCount = s.ledCount := rfl
@[simp] theorem setXerr_corr (s : State) : (setXerr s).corr = s.corr := rfl
@[simp] theorem setXerr_xerr (s : State) : (setXerr s).xerr = true := rfl
@[simp] theorem setXerr_proto (s : State) : (setXerr s).proto = s.proto := rfl
@[simp] theorem setXerr_ill (s : State) : (setXerr s).ill = s.ill := rfl
@[simp] theorem setXerr_ovf (s : State) : (setXerr s).ovf = s.ovf := rfl
@[simp] theorem setXerr_errCode (s : State) : (setXerr s).errCode = s.errCode := rfl
@[simp] theorem setXerr_w (s : State) : (setXerr s).w = s.w := rfl
@[simp] theorem setXerr_fb (s : State) : (setXerr s).fb = s.fb := rfl
@[simp] theorem setXerr_bi (s : State) : (setXerr s).bi = s.bi := rfl
@[simp] theorem setXerr_ec (s : State) : (setXerr s).ec = s.ec := rfl
@[simp] theorem setXerr_waiting (s : State) : (setXerr s).waiting = s.waiting := rfl
@[simp] theorem setXerr_tx (s : State) : (setXerr s).tx = s.tx := rfl
@[simp] theorem setXerr_responses (s : State) : (setXerr s).responses = s.responses := rfl
@[simp] theorem setXerr_host (s : State) : (setXerr s).host = s.host := rfl
@[simp] theorem setXerr_answers (s : State) : (setXerr s).answers = s.answers := rfl

/-! ## `setProto` -/

@[simp] theorem setProto_st (s : State) : (setProto s).st = s.st := rfl
@[simp] theorem setProto_n (s : State) : (setProto s).n = s.n := rfl
@[simp] theorem setProto_cfg0 (s : State) : (setProto s).cfg0 = s.cfg0 := rfl
@[simp] theorem setProto_endCount (s : State) : (setProto s).endCount = s.endCount := rfl
@[simp] theorem setProto_ledCount (s : State) : (setProto s).ledCount = s.ledCount := rfl
@[simp] theorem setProto_corr (s : State) : (setProto s).corr = s.corr := rfl
@[simp] theorem setProto_xerr (s : State) : (setProto s).xerr = s.xerr := rfl
@[simp] theorem setProto_proto (s : State) : (setProto s).proto = true := rfl
@[simp] theorem setProto_ill (s : State) : (setProto s).ill = s.ill := rfl
@[simp] theorem setProto_ovf (s : State) : (setProto s).ovf = s.ovf := rfl
@[simp] theorem setProto_errCode (s : State) : (setProto s).errCode = s.errCode := rfl
@[simp] theorem setProto_w (s : State) : (setProto s).w = s.w := rfl
@[simp] theorem setProto_fb (s : State) : (setProto s).fb = s.fb := rfl
@[simp] theorem setProto_bi (s : State) : (setProto s).bi = s.bi := rfl
@[simp] theorem setProto_ec (s : State) : (setProto s).ec = s.ec := rfl
@[simp] theorem setProto_waiting (s : State) : (setProto s).waiting = s.waiting := rfl
@[simp] theorem setProto_tx (s : State) : (setProto s).tx = s.tx := rfl
@[simp] theorem setProto_responses (s : State) : (setProto s).responses = s.responses := rfl
@[simp] theorem setProto_host (s : State) : (setProto s).host = s.host := rfl
@[simp] theorem setProto_answers (s : State) : (setProto s).answers = s.answers := rfl

/-! ## `setIll` -/

@[simp] theorem setIll_st (s : State) : (setIll s).st = s.st := rfl
@[simp] theorem setIll_n (s : State) : (setIll s).n = s.n := rfl
@[simp] theorem setIll_cfg0 (s : State) : (setIll s).cfg0 = s.cfg0 := rfl
@[simp] theorem setIll_endCount (s : State) : (setIll s).endCount = s.endCount := rfl
@[simp] theorem setIll_ledCount (s : State) : (setIll s).ledCount = s.ledCount := rfl
@[simp] theorem setIll_corr (s : State) : (setIll s).corr = s.corr := rfl
@[simp] theorem setIll_xerr (s : State) : (setIll s).xerr = s.xerr := rfl
@[simp] theorem setIll_proto (s : State) : (setIll s).proto = s.proto := rfl
@[simp] theorem setIll_ill (s : State) : (setIll s).ill = true := rfl
@[simp] theorem setIll_ovf (s : State) : (setIll s).ovf = s.ovf := rfl
@[simp] theorem setIll_errCode (s : State) : (setIll s).errCode = s.errCode := rfl
@[simp] theorem setIll_w (s : State) : (setIll s).w = s.w := rfl
@[simp] theorem setIll_fb (s : State) : (setIll s).fb = s.fb := rfl
@[simp] theorem setIll_bi (s : State) : (setIll s).bi = s.bi := rfl
@[simp] theorem setIll_ec (s : State) : (setIll s).ec = s.ec := rfl
@[simp] theorem setIll_waiting (s : State) : (setIll s).waiting = s.waiting := rfl
@[simp] theorem setIll_tx (s : State) : (setIll s).tx = s.tx := rfl
@[simp] theorem setIll_responses (s : State) : (setIll s).responses = s.responses := rfl
@[simp] theorem setIll_host (s : State) : (setIll s).host = s.host := rfl
@[simp] theorem setIll_answers (s : State) : (setIll s).answers = s.answers := rfl

/-! ## `setOvf` -/

@[simp] theorem setOvf_st (s : State) : (setOvf s).st = s.st := rfl
@[simp] theorem setOvf_n (s : State) : (setOvf s).n = s.n := rfl
@[simp] theorem setOvf_cfg0 (s : State) : (setOvf s).cfg0 = s.cfg0 := rfl
@[simp] theorem setOvf_endCount (s : State) : (setOvf s).endCount = s.endCount := rfl
@[simp] theorem setOvf_ledCount (s : State) : (setOvf s).ledCount = s.ledCount := rfl
@[simp] theorem setOvf_corr (s : State) : (setOvf s).corr = s.corr := rfl
@[simp] theorem setOvf_xerr (s : State) : (setOvf s).xerr = s.xerr := rfl
@[simp] theorem setOvf_proto (s : State) : (setOvf s).proto = s.proto := rfl
@[simp] theorem setOvf_ill (s : State) : (setOvf s).ill = s.ill := rfl
@[simp] theorem setOvf_ovf (s : State) : (setOvf s).ovf = true := rfl
@[simp] theorem setOvf_errCode (s : State) : (setOvf s).errCode = s.errCode := rfl
@[simp] theorem setOvf_w (s : State) : (setOvf s).w = s.w := rfl
@[simp] theorem setOvf_fb (s : State) : (setOvf s).fb = s.fb := rfl
@[simp] theorem setOvf_bi (s : State) : (setOvf s).bi = s.bi := rfl
@[simp] theorem setOvf_ec (s : State) : (setOvf s).ec = s.ec := rfl
@[simp] theorem setOvf_waiting (s : State) : (setOvf s).waiting = s.waiting := rfl
@[simp] theorem setOvf_tx (s : State) : (setOvf s).tx = s.tx := rfl
@[simp] theorem setOvf_responses (s : State) : (setOvf s).responses = s.responses := rfl
@[simp] theorem setOvf_host (s : State) : (setOvf s).host = s.host := rfl
@[simp] theorem setOvf_answers (s : State) : (setOvf s).answers = s.answers := rfl

/-! ## `enterFraming` -/

@[simp] theorem enterFraming_st (s : State) : (enterFraming s).st = .framing := rfl
@[simp] theorem enterFraming_n (s : State) : (enterFraming s).n = s.n := rfl
@[simp] theorem enterFraming_cfg0 (s : State) : (enterFraming s).cfg0 = s.cfg0 := rfl
@[simp] theorem enterFraming_endCount (s : State) : (enterFraming s).endCount = s.endCount := rfl
@[simp] theorem enterFraming_ledCount (s : State) : (enterFraming s).ledCount = s.ledCount := rfl
@[simp] theorem enterFraming_corr (s : State) : (enterFraming s).corr = s.corr := rfl
@[simp] theorem enterFraming_xerr (s : State) : (enterFraming s).xerr = s.xerr := rfl
@[simp] theorem enterFraming_proto (s : State) : (enterFraming s).proto = s.proto := rfl
@[simp] theorem enterFraming_ill (s : State) : (enterFraming s).ill = s.ill := rfl
@[simp] theorem enterFraming_ovf (s : State) : (enterFraming s).ovf = s.ovf := rfl
@[simp] theorem enterFraming_errCode (s : State) : (enterFraming s).errCode = s.errCode := rfl
@[simp] theorem enterFraming_w (s : State) : (enterFraming s).w = s.w := rfl
@[simp] theorem enterFraming_fb (s : State) : (enterFraming s).fb = s.fb := rfl
@[simp] theorem enterFraming_bi (s : State) : (enterFraming s).bi = s.bi := rfl
@[simp] theorem enterFraming_ec (s : State) : (enterFraming s).ec = s.ec := rfl
@[simp] theorem enterFraming_waiting (s : State) : (enterFraming s).waiting = s.waiting := rfl
@[simp] theorem enterFraming_tx (s : State) : (enterFraming s).tx = s.tx := rfl
@[simp] theorem enterFraming_responses (s : State) : (enterFraming s).responses = s.responses := rfl
@[simp] theorem enterFraming_host (s : State) : (enterFraming s).host = s.host := rfl
@[simp] theorem enterFraming_answers (s : State) : (enterFraming s).answers = s.answers := rfl

/-! ## `present` -/

@[simp] theorem present_st (byte : Byte) (last : Bool) (a : Answer) (s : State) : (present byte last a s).st = s.st := rfl
@[simp] theorem present_n (byte : Byte) (last : Bool) (a : Answer) (s : State) : (present byte last a s).n = s.n := rfl
@[simp] theorem present_cfg0 (byte : Byte) (last : Bool) (a : Answer) (s : State) : (present byte last a s).cfg0 = s.cfg0 := rfl
@[simp] theorem present_endCount (byte : Byte) (last : Bool) (a : Answer) (s : State) : (present byte last a s).endCount = s.endCount := rfl
@[simp] theorem present_ledCount (byte : Byte) (last : Bool) (a : Answer) (s : State) : (present byte last a s).ledCount = s.ledCount := rfl
@[simp] theorem present_corr (byte : Byte) (last : Bool) (a : Answer) (s : State) : (present byte last a s).corr = s.corr := rfl
@[simp] theorem present_xerr (byte : Byte) (last : Bool) (a : Answer) (s : State) : (present byte last a s).xerr = s.xerr := rfl
@[simp] theorem present_proto (byte : Byte) (last : Bool) (a : Answer) (s : State) : (present byte last a s).proto = s.proto := rfl
@[simp] theorem present_ill (byte : Byte) (last : Bool) (a : Answer) (s : State) : (present byte last a s).ill = s.ill := rfl
@[simp] theorem present_ovf (byte : Byte) (last : Bool) (a : Answer) (s : State) : (present byte last a s).ovf = s.ovf := rfl
@[simp] theorem present_errCode (byte : Byte) (last : Bool) (a : Answer) (s : State) : (present byte last a s).errCode = s.errCode := rfl
@[simp] theorem present_w (byte : Byte) (last : Bool) (a : Answer) (s : State) : (present byte last a s).w = s.w := rfl
@[simp] theorem present_fb (byte : Byte) (last : Bool) (a : Answer) (s : State) : (present byte last a s).fb = s.fb := rfl
@[simp] theorem present_bi (byte : Byte) (last : Bool) (a : Answer) (s : State) : (present byte last a s).bi = s.bi := rfl
@[simp] theorem present_ec (byte : Byte) (last : Bool) (a : Answer) (s : State) : (present byte last a s).ec = s.ec := rfl
@[simp] theorem present_waiting (byte : Byte) (last : Bool) (a : Answer) (s : State) : (present byte last a s).waiting = s.waiting := rfl
@[simp] theorem present_tx (byte : Byte) (last : Bool) (a : Answer) (s : State) : (present byte last a s).tx = s.tx ++ [⟨byte, last, a⟩] := rfl
@[simp] theorem present_responses (byte : Byte) (last : Bool) (a : Answer) (s : State) : (present byte last a s).responses = s.responses := rfl
@[simp] theorem present_host (byte : Byte) (last : Bool) (a : Answer) (s : State) : (present byte last a s).host = s.host := rfl
@[simp] theorem present_answers (byte : Byte) (last : Bool) (a : Answer) (s : State) : (present byte last a s).answers = s.answers.tail := rfl

/-! ## `takeEvent` -/

@[simp] theorem takeEvent_st (s : State) : (takeEvent s).st = s.st := rfl
@[simp] theorem takeEvent_n (s : State) : (takeEvent s).n = s.n := rfl
@[simp] theorem takeEvent_cfg0 (s : State) : (takeEvent s).cfg0 = s.cfg0 := rfl
@[simp] theorem takeEvent_endCount (s : State) : (takeEvent s).endCount = s.endCount := rfl
@[simp] theorem takeEvent_ledCount (s : State) : (takeEvent s).ledCount = s.ledCount := rfl
@[simp] theorem takeEvent_corr (s : State) : (takeEvent s).corr = s.corr := rfl
@[simp] theorem takeEvent_xerr (s : State) : (takeEvent s).xerr = s.xerr := rfl
@[simp] theorem takeEvent_proto (s : State) : (takeEvent s).proto = s.proto := rfl
@[simp] theorem takeEvent_ill (s : State) : (takeEvent s).ill = s.ill := rfl
@[simp] theorem takeEvent_ovf (s : State) : (takeEvent s).ovf = s.ovf := rfl
@[simp] theorem takeEvent_errCode (s : State) : (takeEvent s).errCode = s.errCode := rfl
@[simp] theorem takeEvent_w (s : State) : (takeEvent s).w = s.w := rfl
@[simp] theorem takeEvent_fb (s : State) : (takeEvent s).fb = s.fb := rfl
@[simp] theorem takeEvent_bi (s : State) : (takeEvent s).bi = s.bi := rfl
@[simp] theorem takeEvent_ec (s : State) : (takeEvent s).ec = s.ec := rfl
@[simp] theorem takeEvent_waiting (s : State) : (takeEvent s).waiting = s.waiting := rfl
@[simp] theorem takeEvent_tx (s : State) : (takeEvent s).tx = s.tx := rfl
@[simp] theorem takeEvent_responses (s : State) : (takeEvent s).responses = s.responses := rfl
@[simp] theorem takeEvent_host (s : State) : (takeEvent s).host = s.host.tail := rfl
@[simp] theorem takeEvent_answers (s : State) : (takeEvent s).answers = s.answers := rfl

/-! ## `raise`: the fields no exception changes -/

@[simp] theorem raise_n (x : Exn) (s : State) : (raise x s).n = s.n := by cases x <;> rfl
@[simp] theorem raise_cfg0 (x : Exn) (s : State) : (raise x s).cfg0 = s.cfg0 := by cases x <;> rfl
@[simp] theorem raise_endCount (x : Exn) (s : State) : (raise x s).endCount = s.endCount := by cases x <;> rfl
@[simp] theorem raise_ledCount (x : Exn) (s : State) : (raise x s).ledCount = s.ledCount := by cases x <;> rfl
@[simp] theorem raise_corr (x : Exn) (s : State) : (raise x s).corr = s.corr := by cases x <;> rfl
@[simp] theorem raise_w (x : Exn) (s : State) : (raise x s).w = s.w := by cases x <;> rfl
@[simp] theorem raise_fb (x : Exn) (s : State) : (raise x s).fb = s.fb := by cases x <;> rfl
@[simp] theorem raise_bi (x : Exn) (s : State) : (raise x s).bi = s.bi := by cases x <;> rfl
@[simp] theorem raise_ec (x : Exn) (s : State) : (raise x s).ec = s.ec := by cases x <;> rfl
@[simp] theorem raise_waiting (x : Exn) (s : State) : (raise x s).waiting = s.waiting := by cases x <;> rfl
@[simp] theorem raise_tx (x : Exn) (s : State) : (raise x s).tx = s.tx := by cases x <;> rfl
@[simp] theorem raise_host (x : Exn) (s : State) : (raise x s).host = s.host := by cases x <;> rfl
@[simp] theorem raise_answers (x : Exn) (s : State) : (raise x s).answers = s.answers := by cases x <;> rfl

/-! ## `raise`: each exception as one record update (60 R183, R185) -/

theorem raise_xerr (e : Word) (s : State) :
    raise (.xerr e) s =
      { s with
        xerr := true
        errCode := errBits e
        st := .aborted
        responses := s.responses ++ [⟨.xerr, errBits e⟩] } := rfl

theorem raise_proto (s : State) :
    raise .proto s = { s with proto := true, responses := s.responses ++ [⟨.proto, 0⟩] } := rfl

theorem raise_illegal (s : State) :
    raise .illegal s = { s with ill := true, responses := s.responses ++ [⟨.illegal, 0⟩] } := rfl

theorem raise_ovf (s : State) :
    raise .ovf s = { s with ovf := true, responses := s.responses ++ [⟨.ovf, 0⟩] } := rfl

theorem raise_flushed (s : State) :
    raise .flushed s = { s with responses := s.responses ++ [⟨.flushed, 0⟩] } := rfl

end Sys2Proof.Machine
end

