-- ==== Sys2Proof/Laws/Transport.lean ====
section
/-! SUPPORT. What a run of beats can do, said once: `Runs f ps` says that `f` presents the beats `ps`, whatever the transport
answers. Every emitting operation is shown to run its beats; `Runs.cases` then gives the three ways it can leave the command. -/

namespace Sys2Proof.Laws

open Sys2Proof.Machine Sys2Proof.Safety

/-- The state after beats `bs` were presented, the answers `rest` being left, hidden registers as given. -/
def sent (s : State) (bs : List Beat) (rest : List Answer) (bi : Nat) (ec : Word) : State :=
  { s with tx := s.tx ++ bs, answers := rest, bi := bi, ec := ec }

/-- The state after a transport error (60 R183) on top of `sent`. -/
def failed (s : State) (bs : List Beat) (e : Word) (rest : List Answer) (bi : Nat) (ec : Word) : State :=
  raise (.xerr e) (sent s bs rest bi ec)

/-- The state of a command whose last beat is unanswered (20 R46) on top of `sent`. -/
def stalled (s : State) (bs : List Beat) (rest : List Answer) (bi : Nat) (ec : Word) : State :=
  { sent s bs rest bi ec with waiting := true }

@[simp] theorem sent_sent (s : State) (bs cs : List Beat) (rest rest' : List Answer) (bi bi' : Nat) (ec ec' : Word) :
    sent (sent s bs rest bi ec) cs rest' bi' ec' = sent s (bs ++ cs) rest' bi' ec' := by simp [sent]

@[simp] theorem failed_sent (s : State) (bs cs : List Beat) (e : Word) (rest rest' : List Answer) (bi bi' : Nat)
    (ec ec' : Word) :
    failed (sent s bs rest bi ec) cs e rest' bi' ec' = failed s (bs ++ cs) e rest' bi' ec' := by simp [failed]

@[simp] theorem stalled_sent (s : State) (bs cs : List Beat) (rest rest' : List Answer) (bi bi' : Nat) (ec ec' : Word) :
    stalled (sent s bs rest bi ec) cs rest' bi' ec' = stalled s (bs ++ cs) rest' bi' ec' := by simp [stalled]

@[simp] theorem okBeats_append (ps qs : List (Byte × Bool)) : okBeats (ps ++ qs) = okBeats ps ++ okBeats qs := by
  simp [okBeats]

/-- `as` gives `k` answers `OK` and then none, leaving `rest`. -/
def SilentAfter (k : Nat) (as rest : List Answer) : Prop :=
  as = List.replicate k .ok ++ .silent :: rest ∨ (as = List.replicate k .ok ∧ rest = [])

/-- `f` presents the beats `ps`: all of them if every one is answered `OK`, and up to the first that is not. -/
structure Runs (f : State → Flow) (ps : List (Byte × Bool)) : Prop where
  ok : ∀ (s : State) (rest : List Answer), s.answers = List.replicate ps.length .ok ++ rest →
    ∃ bi ec, f s = .go (sent s (okBeats ps) rest bi ec)
  err : ∀ (s : State) (k : Nat) (e : Word) (p : Byte × Bool) (rest : List Answer), ps[k]? = some p →
    s.answers = List.replicate k .ok ++ .err e :: rest →
    ∃ bi ec, f s = .halt (failed s (okBeats (ps.take k) ++ [answered (.err (errBits e)) p]) e rest bi ec)
  silent : ∀ (s : State) (k : Nat) (p : Byte × Bool) (rest : List Answer), ps[k]? = some p →
    SilentAfter k s.answers rest →
    ∃ bi ec, f s = .halt (stalled s (okBeats (ps.take k) ++ [answered .silent p]) rest bi ec)

/-- Every list of answers is all `OK` for `n` beats, or has a first one that is not. -/
theorem answers_cases (as : List Answer) (n : Nat) :
    (∃ rest, as = List.replicate n .ok ++ rest) ∨
    (∃ k e rest, k < n ∧ as = List.replicate k .ok ++ .err e :: rest) ∨
    (∃ k rest, k < n ∧ SilentAfter k as rest) := by
  induction n generalizing as with
  | zero => exact .inl ⟨as, by simp⟩
  | succ n ih =>
    rcases as with _ | ⟨a, as⟩
    · exact .inr (.inr ⟨0, [], by omega, .inr (by simp)⟩)
    · rcases a with _ | e | _
      · rcases ih as with ⟨rest, rfl⟩ | ⟨k, e, rest, hk, rfl⟩ | ⟨k, rest, hk, h⟩
        · exact .inl ⟨rest, by simp [List.replicate_succ]⟩
        · exact .inr (.inl ⟨k + 1, e, rest, by omega, by simp [List.replicate_succ]⟩)
        · refine .inr (.inr ⟨k + 1, rest, by omega, ?_⟩)
          rcases h with rfl | ⟨rfl, rfl⟩
          · exact .inl (by simp [List.replicate_succ])
          · exact .inr (by simp [List.replicate_succ])
      · exact .inr (.inl ⟨0, e, as, by omega, by simp⟩)
      · exact .inr (.inr ⟨0, as, by omega, .inl (by simp)⟩)

/-- The three ways a run of beats leaves the command. -/
theorem Runs.cases {f : State → Flow} {ps : List (Byte × Bool)} (h : Runs f ps) (s : State) :
    (∃ rest bi ec, s.answers = List.replicate ps.length .ok ++ rest ∧ f s = .go (sent s (okBeats ps) rest bi ec)) ∨
    (∃ k e p rest bi ec, ps[k]? = some p ∧ s.answers = List.replicate k .ok ++ .err e :: rest ∧
      f s = .halt (failed s (okBeats (ps.take k) ++ [answered (.err (errBits e)) p]) e rest bi ec)) ∨
    (∃ k p rest bi ec, ps[k]? = some p ∧ SilentAfter k s.answers rest ∧
      f s = .halt (stalled s (okBeats (ps.take k) ++ [answered .silent p]) rest bi ec)) := by
  rcases answers_cases s.answers ps.length with ⟨rest, ha⟩ | ⟨k, e, rest, hk, ha⟩ | ⟨k, rest, hk, ha⟩
  · obtain ⟨bi, ec, hf⟩ := h.ok s rest ha
    exact .inl ⟨rest, bi, ec, ha, hf⟩
  · obtain ⟨bi, ec, hf⟩ := h.err s k e _ rest (List.getElem?_eq_getElem hk) ha
    exact .inr (.inl ⟨k, e, _, rest, bi, ec, List.getElem?_eq_getElem hk, ha, hf⟩)
  · obtain ⟨bi, ec, hf⟩ := h.silent s k _ rest (List.getElem?_eq_getElem hk) ha
    exact .inr (.inr ⟨k, _, rest, bi, ec, List.getElem?_eq_getElem hk, ha, hf⟩)

/-- No beats. -/
theorem runs_nil : Runs .go [] where
  ok s rest h := by
    obtain rfl : s.answers = rest := by simpa using h
    exact ⟨s.bi, s.ec, by simp [sent, okBeats]⟩
  err s k e p rest h := by simp at h
  silent s k p rest h := by simp at h

/-- One byte, `TxByte`, followed by an update of the hidden registers. -/
theorem runs_byte (b : Byte) (last : Bool) (bi : State → Nat) (ec : State → Word) :
    Runs (fun s => (txByte b last s).andThen fun t => .go { t with bi := bi t, ec := ec t }) [(b, last)] where
  ok s rest h := by
    refine ⟨bi (present b last .ok s), ec (present b last .ok s), ?_⟩
    simp_all [txByte, nextAnswer, Flow.andThen, present, sent, okBeats, answered]
  err s k e p rest hp h := by
    obtain rfl : k = 0 := by
      rcases k with _ | k
      · rfl
      · simp at hp
    obtain rfl : (b, last) = p := by simpa using hp
    refine ⟨s.bi, s.ec, ?_⟩
    simp_all [txByte, nextAnswer, Flow.andThen, present, failed, sent, okBeats, answered]
  silent s k p rest hp h := by
    obtain rfl : k = 0 := by
      rcases k with _ | k
      · rfl
      · simp at hp
    obtain rfl : (b, last) = p := by simpa using hp
    refine ⟨s.bi, s.ec, ?_⟩
    rcases h with h | ⟨h, rfl⟩ <;>
      simp_all [txByte, nextAnswer, Flow.andThen, present, stalled, sent, okBeats, answered]

/-- One run after another. -/
theorem Runs.andThen {f g : State → Flow} {ps qs : List (Byte × Bool)} (hf : Runs f ps) (hg : Runs g qs) :
    Runs (fun s => (f s).andThen g) (ps ++ qs) where
  ok s rest h := by
    rw [List.length_append, List.replicate_add, List.append_assoc] at h
    obtain ⟨bi, ec, hf⟩ := hf.ok s _ h
    obtain ⟨bi', ec', hg⟩ := hg.ok (sent s (okBeats ps) _ bi ec) rest rfl
    exact ⟨bi', ec', by simp only [hf, Flow.andThen, hg, sent_sent, okBeats_append]⟩
  err s k e p rest hp h := by
    rcases Nat.lt_or_ge k ps.length with hk | hk
    · rw [List.getElem?_append_left hk] at hp
      obtain ⟨bi, ec, hf⟩ := hf.err s k e p rest hp h
      exact ⟨bi, ec, by simp [hf, Flow.andThen, List.take_append_of_le_length hk.le]⟩
    · rw [List.getElem?_append_right hk] at hp
      obtain ⟨j, rfl⟩ := Nat.exists_eq_add_of_le hk
      rw [List.replicate_add, List.append_assoc] at h
      obtain ⟨bi, ec, hf⟩ := hf.ok s _ h
      rw [Nat.add_sub_cancel_left] at hp
      obtain ⟨bi', ec', hg⟩ := hg.err (sent s (okBeats ps) _ bi ec) j e p rest hp rfl
      exact ⟨bi', ec', by
        simp only [hf, Flow.andThen, hg, failed_sent, List.take_length_add_append, okBeats_append, List.append_assoc]⟩
  silent s k p rest hp h := by
    rcases Nat.lt_or_ge k ps.length with hk | hk
    · rw [List.getElem?_append_left hk] at hp
      obtain ⟨bi, ec, hf⟩ := hf.silent s k p rest hp h
      exact ⟨bi, ec, by simp [hf, Flow.andThen, List.take_append_of_le_length hk.le]⟩
    · rw [List.getElem?_append_right hk] at hp
      obtain ⟨j, rfl⟩ := Nat.exists_eq_add_of_le hk
      rw [Nat.add_sub_cancel_left] at hp
      obtain ⟨as, ha, has⟩ : ∃ as, s.answers = List.replicate ps.length .ok ++ as ∧ SilentAfter j as rest := by
        rcases h with h | ⟨h, rfl⟩
        · exact ⟨_, by rw [h, List.replicate_add, List.append_assoc], .inl rfl⟩
        · exact ⟨_, by rw [h, List.replicate_add], .inr ⟨rfl, rfl⟩⟩
      obtain ⟨bi, ec, hf⟩ := hf.ok s _ ha
      obtain ⟨bi', ec', hg⟩ := hg.silent (sent s (okBeats ps) _ bi ec) j p rest hp has
      exact ⟨bi', ec', by
        simp only [hf, Flow.andThen, hg, stalled_sent, List.take_length_add_append, okBeats_append, List.append_assoc]⟩

/-- The hidden registers may be set before a run. -/
theorem Runs.hidden {f : State → Flow} {ps : List (Byte × Bool)} (hf : Runs f ps) (bi : Nat) (ec : State → Word) :
    Runs (fun s => f { s with bi := bi, ec := ec s }) ps where
  ok s rest h := hf.ok { s with bi := bi, ec := ec s } rest h
  err s k e p rest hp h := hf.err { s with bi := bi, ec := ec s } k e p rest hp h
  silent s k p rest hp h := hf.silent { s with bi := bi, ec := ec s } k p rest hp h

theorem andThen_assoc (f : Flow) (g h : State → Flow) :
    (f.andThen g).andThen h = f.andThen fun s => (g s).andThen h := by cases f <;> rfl

/-- The bytes of a segment (20 R47). -/
theorem runs_txBytes : ∀ bs : List Byte, Runs (txBytes bs) (seg bs)
  | [] => runs_nil
  | b :: bs => by
    have h := (runs_byte b bs.isEmpty (fun t => t.bi + 1) (fun t => t.ec)).andThen (runs_txBytes bs)
    simp only [andThen_assoc] at h
    exact h

/-- `TxSeg` presents its segment. -/
theorem runs_txSeg (bs : List Byte) : Runs (txSeg bs) (seg bs) := (runs_txBytes bs).hidden 0 (fun s => s.ec)

/-- The loop of `END` presents one segment of `k` bytes (44 R145). -/
theorem runs_endLoop (fill : Byte) : ∀ k : Nat, Runs (endLoop fill k) (seg (List.replicate k fill))
  | 0 => runs_nil
  | k + 1 => by
    have h := (runs_byte fill (k == 0) (fun t => t.bi + 1) (fun _ => BitVec.ofNat 32 k)).andThen (runs_endLoop fill k)
    simp only [andThen_assoc] at h
    have hs : seg (List.replicate (k + 1) fill) = [(fill, k == 0)] ++ seg (List.replicate k fill) := by
      cases k <;> simp [List.replicate_succ, seg]
    rw [hs]
    exact h

/-- The end frame. -/
theorem runs_txEnd (cnt : Word) (fill : Byte) : Runs (txEnd cnt fill) (seg (List.replicate cnt.toNat fill)) :=
  (runs_endLoop fill cnt.toNat).hidden 0 (fun _ => cnt)

end Sys2Proof.Laws
end

