-- ==== Sys2Proof/Laws/Exec.lean ====
section
/-! SUPPORT. What a command can do, said once: `exec_effect` lists every next state `exec` can answer, so that a claim about
all commands is a case analysis on `Effect` and never unfolds a meaning. -/

namespace Sys2Proof.Laws

open Sys2Proof.Machine Sys2Proof.Safety

/-- The update a frame command places after its last beat (44 R141, R145, R148). -/
def completed (i : Instr) (t : State) : State :=
  match i with
  | .beginFrame => { t with st := .framing }
  | .endFrame => { t with st := .ended }
  | _ => { t with n := t.n + 1 }

/-- The state in which a frame command presents its first beat. -/
def started (i : Instr) (s : State) (w : Work) (fb : FrameBuf) : State :=
  { s with n := startCount i s, w := w, fb := fb }

/-- The beats of a pixel frame (44 R148). -/
def pixelBeats (cfg0 : Word) (brt r g b : Byte) : List (Byte × Bool) :=
  match pixelFrame cfg0 brt r g b with
  | some f => seg f.bytes
  | none => []

/-- The beats of the pixel frame of a latch (44 R143, R144). -/
def latchBeats (cfg0 : Word) (d : DeviceColor) : List (Byte × Bool) :=
  pixelBeats cfg0 (d.brt.setWidth 8) d.red d.grn d.blu

/-- The beats a frame command presents, as the machine computes them (44 R141 to R145). -/
def presents (i : Instr) (s : State) : List (Byte × Bool) :=
  match i with
  | .beginFrame => seg zeroFrame
  | .pixdev brt r g b => pixelBeats s.cfg0 brt r g b
  | .pixlin16 brt r g b => latchBeats s.cfg0 (encLin16 r g b brt s.w).out
  | .pixperc8 brt r g b => latchBeats s.cfg0 (encPerc8 r g b brt (registerCorrection s) s.w).out
  | .endFrame =>
    (if resetEn s.cfg0 = true then seg zeroFrame else []) ++ seg (List.replicate (endFrame s).1.toNat (endFrame s).2)
  | _ => []

/-- When a command is refused or discarded, and by which exception (30 R74, 44 R146, R147). -/
def Refuses (i : Instr) (s : State) : Exn → Prop
  | .xerr _ => False
  | .illegal => i.wellFormed = false
  | .proto => ((isPixel i = true ∨ i = .endFrame) ∧ (s.st = .idle ∨ s.st = .ended)) ∨ (isCfgwr i = true ∧ s.st = .framing)
  | .ovf => isPixel i = true ∧ s.st = .framing ∧ s.n = 0xFFFFFFFF
  | .flushed => (isPixel i = true ∨ i = .endFrame) ∧ s.st = .aborted

/-- The next states a command can give. -/
inductive Effect (i : Instr) (s : State) : State → Prop
  /-- refused or discarded (60 R185) -/
  | refused (x : Exn) (hx : Refuses i s x) : Effect i s (raise x s)
  /-- a compute command or `CFGRD` -/
  | replied (p : Word) (w : Work) (hi : isCompute i = true ∨ ∃ idx, i = .cfgrd idx) :
      Effect i s (respond .ok p { s with w := w })
  /-- `CFGWR` -/
  | wrote (idx : BitVec 4) (val : Word) (hi : i = .cfgwr idx val) (hl : cfgwrLegal idx val = true)
      (hs : s.st ≠ .framing) : Effect i s (respond .ok 0 (regWrite idx val s))
  /-- a frame command, every beat answered `OK` -/
  | done (w : Work) (fb : FrameBuf) (rest : List Answer) (bi : Nat) (ec : Word) (hx : Executes i s)
      (ha : s.answers = List.replicate (presents i s).length .ok ++ rest) :
      Effect i s (respond .ok 0 (completed i (sent (started i s w fb) (okBeats (presents i s)) rest bi ec)))
  /-- a frame command ended by a transport error -/
  | aborted (w : Work) (fb : FrameBuf) (k : Nat) (e : Word) (p : Byte × Bool) (rest : List Answer) (bi : Nat) (ec : Word)
      (hx : Executes i s) (hp : (presents i s)[k]? = some p) (ha : s.answers = List.replicate k .ok ++ .err e :: rest) :
      Effect i s (failed (started i s w fb)
        (okBeats ((presents i s).take k) ++ [answered (.err (errBits e)) p]) e rest bi ec)
  /-- a frame command whose last beat is never answered -/
  | silent (w : Work) (fb : FrameBuf) (k : Nat) (p : Byte × Bool) (rest : List Answer) (bi : Nat) (ec : Word)
      (hx : Executes i s) (hp : (presents i s)[k]? = some p) (ha : SilentAfter k s.answers rest) :
      Effect i s (stalled (started i s w fb) (okBeats ((presents i s).take k) ++ [answered .silent p]) rest bi ec)

/-- A run of beats from a frame command's start, then its last lines: one of the three frame effects. -/
theorem effect_of_runs {i : Instr} {s : State} {w : Work} {fb : FrameBuf} {f : State → Flow}
    (hf : Runs f (presents i s)) (hx : Executes i s) :
    Effect i s ((f (started i s w fb)).finish fun t => respond .ok 0 (completed i t)) := by
  rcases hf.cases (started i s w fb) with ⟨rest, bi, ec, ha, h⟩ | ⟨k, e, p, rest, bi, ec, hp, ha, h⟩ |
    ⟨k, p, rest, bi, ec, hp, ha, h⟩
  · rw [h]; exact .done w fb rest bi ec hx ha
  · rw [h]; exact .aborted w fb k e p rest bi ec hx hp ha
  · rw [h]; exact .silent w fb k p rest bi ec hx hp ha

/-- What follows the admission table (44 R146). -/
theorem ifAdmitted_next {g : CmdGroup} {s t : State} {body : State → Host.Outcome State Fault Refusal}
    (h : ifAdmitted g s body = .next t) :
    (∃ x, admission g s.st = some x ∧ t = raise x s) ∨ (admission g s.st = none ∧ body s = .next t) := by
  unfold ifAdmitted at h
  split at h
  · rename_i x hx
    exact .inl ⟨x, hx, by simpa using h.symm⟩
  · rename_i hx
    exact .inr ⟨hx, h⟩

/-- The pixel row of the admission table (44 R146). -/
theorem pixel_refuses {i : Instr} {s : State} {x : Exn} (hi : isPixel i = true)
    (h : admission .pixelCmd s.st = some x) : Refuses i s x := by
  cases hs : s.st <;> simp only [hs, admission, Option.some.injEq, reduceCtorEq] at h <;> subst h <;> simp [Refuses, hi, hs]

/-- The `END` row (44 R146). -/
theorem end_refuses {s : State} {x : Exn} (h : admission .endCmd s.st = some x) : Refuses .endFrame s x := by
  cases hs : s.st <;> simp only [hs, admission, Option.some.injEq, reduceCtorEq] at h <;> subst h <;> simp [Refuses, hs]

/-- The `CFGWR` row (44 R146). -/
theorem cfgwr_refuses {idx : BitVec 4} {val : Word} {s : State} {x : Exn} (h : admission .cfgwrCmd s.st = some x) :
    Refuses (.cfgwr idx val) s x := by
  cases hs : s.st <;> simp only [hs, admission, Option.some.injEq, reduceCtorEq] at h
  subst h
  simp [Refuses, isCfgwr, hs]

/-- Only a pixel command in `FRAMING` gets past the table (44 R146). -/
theorem pixel_admitted {q : SeqState} (h : admission .pixelCmd q = none) : q = .framing := by
  cases q <;> simp_all [admission]

/-- Only an `END` in `FRAMING` gets past the table (44 R146). -/
theorem end_admitted {q : SeqState} (h : admission .endCmd q = none) : q = .framing := by
  cases q <;> simp_all [admission]

/-- A `CFGWR` in `FRAMING` does not get past the table (44 R146). -/
theorem cfgwr_admitted {q : SeqState} (h : admission .cfgwrCmd q = none) : q ≠ .framing := by
  rintro rfl
  simp [admission] at h

/-- The admission and the counter check of a pixel command, then its body. -/
theorem pixel_effect {i : Instr} {s t : State} {body : State → Host.Outcome State Fault Refusal}
    (hi : isPixel i = true) (hb : Executes i s → body s = .next t → Effect i s t)
    (h : ifAdmitted .pixelCmd s (fun s => ifCountable s body) = .next t) : Effect i s t := by
  rcases ifAdmitted_next h with ⟨x, hx, rfl⟩ | ⟨hx, h⟩
  · exact .refused x (pixel_refuses hi hx)
  · rw [ifCountable] at h
    split at h
    · rename_i hn
      obtain rfl : _ = t := by simpa using h
      exact .refused .ovf ⟨hi, pixel_admitted hx, hn⟩
    · rename_i hn
      exact hb (.inr (.inl ⟨hi, pixel_admitted hx, hn⟩)) h

/-- `EmitPixel` of a command that has put `w` into its working registers. -/
theorem emitPixel_effect {i : Instr} {s t : State} {w : Work} {brt r g b : Byte} (hi : isPixel i = true)
    (hp : presents i s = pixelBeats s.cfg0 brt r g b) (hx : Executes i s) (h : emitPixel brt r g b { s with w := w } = .next t) : Effect i s t := by
  unfold emitPixel at h
  split at h
  · cases h
  · rename_i f hf
    cases h
    have hp : presents i s = seg f.bytes := by
      rw [hp, pixelBeats, show pixelFrame s.cfg0 brt r g b = some f from hf]
    have hc : ∀ u : State, { u with n := u.n + 1 } = completed i u := by cases i <;> simp_all [isPixel, completed]
    have hs : ({ s with w := w, fb := f } : State) = started i s w f := by
      cases i <;> simp_all [isPixel, started, startCount]
    rw [show (fun u : State => respond .ok 0 { u with n := u.n + 1 }) = fun u => respond .ok 0 (completed i u) from
      funext fun u => by rw [hc]]
    rw [hs]
    exact effect_of_runs (hp ▸ runs_txSeg f.bytes) hx

/-- The flow of `END` (44 R145) as one run; the end frame is computed from a state the reset frame has not changed. -/
theorem end_runs (s : State) :
    ∃ f, Runs f ((if resetEn s.cfg0 = true then seg zeroFrame else []) ++
        seg (List.replicate (endFrame s).1.toNat (endFrame s).2)) ∧
      (txReset s).andThen (fun t => txEnd (endFrame t).1 (endFrame t).2 t) = f s := by
  by_cases hr : resetEn s.cfg0 = true
  · refine ⟨fun u => (txSeg zeroFrame u).andThen (txEnd (endFrame s).1 (endFrame s).2), ?_, ?_⟩
    · simp only [hr, if_true]
      exact (runs_txSeg zeroFrame).andThen (runs_txEnd _ _)
    · simp only [txReset, hr, if_true]
      rcases (runs_txSeg zeroFrame).cases s with ⟨rest, bi, ec, _, h⟩ | ⟨k, e, p, rest, bi, ec, _, _, h⟩ |
        ⟨k, p, rest, bi, ec, _, _, h⟩ <;> rw [h] <;> rfl
  · refine ⟨txEnd (endFrame s).1 (endFrame s).2, ?_, ?_⟩
    · simp only [hr]
      exact runs_txEnd _ _
    · simp [txReset, hr, Flow.andThen]

/-- EVERY next state a command can give. -/
theorem exec_effect {i : Instr} {s t : State} (h : exec i s = .next t) : Effect i s t := by
  have reply : ∀ {p : Word} {w : Work}, (isCompute i = true ∨ ∃ idx, i = .cfgrd idx) →
      answerWith p { s with w := w } = .next t → Effect i s t := fun hi h => by
    obtain rfl : _ = t := by simpa [answerWith, ifAdmitted, admission] using h
    exact .replied _ _ hi
  have latch : ∀ {w : Work}, isCompute i = true → answerLatch w s = .next t → Effect i s t := fun hi h =>
    reply (.inl hi) h
  cases i with
  | beginFrame =>
    obtain rfl : _ = t := by simpa [exec, execBegin, ifAdmitted, admission] using h
    exact effect_of_runs (i := .beginFrame) (w := s.w) (fb := s.fb) (runs_txSeg zeroFrame) (.inl rfl)
  | pixdev brt r g b =>
    exact pixel_effect rfl (fun hx h => emitPixel_effect (w := s.w) rfl rfl hx h) h
  | pixlin16 brt r g b =>
    exact pixel_effect (body := fun s => emitLatch { s with w := encLin16 r g b brt s.w }) rfl
      (fun hx h => emitPixel_effect rfl rfl hx h) h
  | pixperc8 brt r g b =>
    exact pixel_effect (body := fun s => emitLatch { s with w := encPerc8 r g b brt (registerCorrection s) s.w }) rfl
      (fun hx h => emitPixel_effect rfl rfl hx h) h
  | endFrame =>
    rcases ifAdmitted_next (show execEnd s = .next t from h) with ⟨x, hx, rfl⟩ | ⟨hx, h⟩
    · exact .refused x (end_refuses hx)
    · cases h
      obtain ⟨f, hf, he⟩ := end_runs s
      rw [he]
      exact effect_of_runs (i := .endFrame) (w := s.w) (fb := s.fb) hf (.inr (.inr ⟨rfl, end_admitted hx⟩))
  | cfgwr idx val =>
    simp only [exec, execCfgwr] at h
    split at h
    · rename_i hl
      rcases ifAdmitted_next h with ⟨x, hx, rfl⟩ | ⟨hx, h⟩
      · exact .refused x (cfgwr_refuses hx)
      · obtain rfl : _ = t := by simpa using h
        exact .wrote idx val rfl hl (cfgwr_admitted hx)
    · rename_i hl
      obtain rfl : _ = t := by simpa using h
      exact .refused .illegal (by simpa [Refuses, cfgwrLegal_eq] using hl)
  | cfgrd idx =>
    simp only [exec, execCfgrd] at h
    split at h
    · rename_i hl
      obtain rfl : _ = t := by simpa using h
      exact .refused .illegal ((regRead_eq_none_iff idx s).mp hl)
    · exact reply (w := s.w) (.inr ⟨idx, rfl⟩) h
  | gamma idx => exact reply (w := s.w) (.inl rfl) h
  | scale val sc => exact reply (w := s.w) (.inl rfl) h
  | map val => exact reply (w := s.w) (.inl rfl) h
  | bshift8 src dst max => exact reply (w := s.w) (.inl rfl) h
  | bshift16 src dst max steps =>
    simp only [exec, execBshift16] at h
    split at h
    · exact reply (w := s.w) (.inl rfl) h
    · rename_i hl
      obtain rfl : _ = t := by simpa using h
      exact .refused .illegal (by simpa [Refuses, stepsLegal_eq src dst max] using hl)
  | enclin16 brt r g b => exact latch rfl h
  | encperc8 brt r g b cp cr cg cb =>
    simp only [exec, execEncperc8] at h
    split at h
    · exact latch rfl h
    · rename_i hl
      obtain rfl : _ = t := by simpa using h
      exact .refused .illegal (by simpa [Refuses, corrLegal_eq brt r g b] using hl)

/-- The next states of a step: idle, reset, a word that is no command, or a command's effect. -/
theorem step_cases {s t : State} (h : step s = .next t) :
    (s.host = [] ∧ t = s) ∨
    (∃ rest, s.host = .reset :: rest ∧ t = resetEvent { s with host := rest }) ∨
    (∃ c rest e, s.host = .command c :: rest ∧ decode c = .error e ∧ t = raise .illegal { s with host := rest }) ∨
    (∃ c rest i, s.host = .command c :: rest ∧ s.waiting = false ∧ decode c = .ok i ∧
      exec i { s with host := rest } = .next t) := by
  unfold step fetch at h
  rcases hh : s.host with _ | ⟨c | _, rest⟩
  · rw [hh] at h
    by_cases hw : s.waiting = true
    · simp [hw] at h
    · simp only [hw, Bool.false_eq_true, if_false] at h
      exact .inl ⟨rfl, by simpa using h.symm⟩
  · rw [hh] at h
    simp only at h
    by_cases hw : s.waiting = true
    · simp [hw] at h
    · simp only [hw, Bool.false_eq_true, if_false] at h
      rcases hd : decode c with e | i
      · rw [hd] at h
        refine .inr (.inr (.inl ⟨c, rest, e, rfl, hd, ?_⟩))
        simpa [takeEvent, hh] using h.symm
      · rw [hd] at h
        refine .inr (.inr (.inr ⟨c, rest, i, rfl, by simpa using hw, hd, ?_⟩))
        simpa [takeEvent, hh] using h
  · rw [hh] at h
    refine .inr (.inl ⟨rest, rfl, ?_⟩)
    simpa [takeEvent, hh] using h.symm

end Sys2Proof.Laws
end

