-- ==== Sys2Proof/Laws/PerInstr.lean ====
section
/-! SUPPORT. Per instruction: the word `encode` gives it meets a row of the opcode map, and that row's field table reads every
operand back (spec 30 R63, R65). -/

namespace Sys2Proof.Laws.Encoding

open Sys2Proof

/-- The instruction's word meets a row of R63, whose fields give the instruction back. -/
def Statement (i : Instr) : Prop := ∃ r ∈ opRows, r.hit (encode i) = true ∧ r.fields (encode i) = i

/-- The row is found by its place in the map. -/
theorem intro (n : Nat) (i : Instr) (r : OpRow) (hr : opRows[n]? = some r) (hm : encode i &&& r.mask = r.pattern)
    (hf : r.fields (encode i) = i) : Statement i :=
  ⟨r, List.mem_of_getElem? hr, by simpa [OpRow.hit] using hm, hf⟩

theorem beginFrame : Statement .beginFrame := intro 0 _ _ rfl (by decide) rfl

theorem pixdev (brt red grn blu : Byte) : Statement (.pixdev brt red grn blu) := by
  refine intro 1 _ _ rfl ?_ ?_
  · simp (disch := decide) only [encode, or_and, putField_masked]
    decide
  · simp (disch := decide) [encode, cmdField_or, cmdField_putField, cmdField_putField_apart]

theorem pixlin16 (brt : Byte) (r g b : Half) : Statement (.pixlin16 brt r g b) := by
  refine intro 2 _ _ rfl ?_ ?_
  · simp (disch := decide) only [encode, or_and, putField_masked]
    decide
  · simp (disch := decide) [encode, cmdField_or, cmdField_putField, cmdField_putField_apart]

theorem pixperc8 (brt r g b : Byte) : Statement (.pixperc8 brt r g b) := by
  refine intro 3 _ _ rfl ?_ ?_
  · simp (disch := decide) only [encode, or_and, putField_masked]
    decide
  · simp (disch := decide) [encode, cmdField_or, cmdField_putField, cmdField_putField_apart]

theorem endFrame : Statement .endFrame := intro 4 _ _ rfl (by decide) rfl

theorem cfgwr (idx : BitVec 4) (val : Word) : Statement (.cfgwr idx val) := by
  refine intro 5 _ _ rfl ?_ ?_
  · simp (disch := decide) only [encode, or_and, putField_masked]
    decide
  · simp (disch := decide) [encode, cmdField_or, cmdField_putField, cmdField_putField_apart]

theorem cfgrd (idx : BitVec 4) : Statement (.cfgrd idx) := by
  refine intro 6 _ _ rfl ?_ ?_
  · simp (disch := decide) only [encode, or_and, putField_masked]
    decide
  · simp (disch := decide) [encode, cmdField_or, cmdField_putField, cmdField_putField_apart]

theorem gamma (idx : Byte) : Statement (.gamma idx) := by
  refine intro 7 _ _ rfl ?_ ?_
  · simp (disch := decide) only [encode, or_and, putField_masked]
    decide
  · simp (disch := decide) [encode, cmdField_or, cmdField_putField, cmdField_putField_apart]

theorem scale (val : Half) (sc : Byte) : Statement (.scale val sc) := by
  refine intro 8 _ _ rfl ?_ ?_
  · simp (disch := decide) only [encode, or_and, putField_masked]
    decide
  · simp (disch := decide) [encode, cmdField_or, cmdField_putField, cmdField_putField_apart]

theorem map (val : Half) : Statement (.map val) := by
  refine intro 9 _ _ rfl ?_ ?_
  · simp (disch := decide) only [encode, or_and, putField_masked]
    decide
  · simp (disch := decide) [encode, cmdField_or, cmdField_putField, cmdField_putField_apart]

theorem bshift8 (src dst max : Byte) : Statement (.bshift8 src dst max) := by
  refine intro 10 _ _ rfl ?_ ?_
  · simp (disch := decide) only [encode, or_and, putField_masked]
    decide
  · simp (disch := decide) [encode, cmdField_or, cmdField_putField, cmdField_putField_apart]

theorem bshift16 (src : Byte) (dst : Half) (max steps : Byte) : Statement (.bshift16 src dst max steps) := by
  refine intro 11 _ _ rfl ?_ ?_
  · simp (disch := decide) only [encode, or_and, putField_masked]
    decide
  · simp (disch := decide) [encode, cmdField_or, cmdField_putField, cmdField_putField_apart]

theorem enclin16 (brt : Byte) (r g b : Half) : Statement (.enclin16 brt r g b) := by
  refine intro 12 _ _ rfl ?_ ?_
  · simp (disch := decide) only [encode, or_and, putField_masked]
    decide
  · simp (disch := decide) [encode, cmdField_or, cmdField_putField, cmdField_putField_apart]

theorem encperc8 (brt r g b : Byte) (cp : Bool) (cr cg cb : Byte) : Statement (.encperc8 brt r g b cp cr cg cb) := by
  refine intro 13 _ _ rfl ?_ ?_
  · simp (disch := decide) only [encode, or_and, putField_masked]
    decide
  · simp (disch := decide) [encode, cmdField_or, cmdField_putField, cmdField_putField_apart]
    cases cp <;> rfl

end Sys2Proof.Laws.Encoding
end

