-- ==== Sys2Proof/Laws/Units.lean ====
section
/-! SUPPORT. The arithmetic units over the natural numbers: one lemma per function, saying all it does, for callers to cite
instead of unfolding it (spec 41 R106: no operation wraps). -/

namespace Sys2Proof.Laws

open Sys2Proof.Machine

/-! ## U2, U3 -/

theorem scale_product_lt (x : Half) (c : Byte) : x.toNat * (c.toNat + 1) / 256 < 2 ^ 16 := by
  have h : x.toNat * (c.toNat + 1) ≤ 0xFFFF * 256 := Nat.mul_le_mul (by omega) (by omega)
  omega

/-- `scale16by8` exactly (41 R100). -/
theorem scale16by8_toNat (x : Half) (c : Byte) :
    (scale16by8 x c).toNat = if c.toNat = 0 then 0 else x.toNat * (c.toNat + 1) / 256 := by
  have hlt := scale_product_lt x c
  have hc : c = 0 ↔ c.toNat = 0 := by rw [← BitVec.toNat_inj]; rfl
  unfold scale16by8
  by_cases h : c = 0
  · simp [h]
  · rw [if_neg h, if_neg (hc.not.mp h), BitVec.toNat_ofNat, Nat.shiftRight_eq_div_pow, Nat.mod_eq_of_lt hlt]

/-- `map16_to_8` exactly (41 R103, R104(a)). -/
theorem map16to8_toNat (v : Half) : (map16to8 v).toNat = min 255 ((v.toNat + 128) / 256) := by
  unfold map16to8
  have hv := v.isLt
  split
  · rename_i h
    have : 0xFF00 ≤ v.toNat := h
    show 255 = _
    omega
  · rename_i h
    have : ¬ 0xFF00 ≤ v.toNat := h
    rw [BitVec.toNat_ofNat, Nat.shiftRight_eq_div_pow]
    omega

theorem umax_toNat (a b : Half) : (umax a b).toNat = max a.toNat b.toNat := by
  unfold umax
  split <;> rename_i h <;> rw [BitVec.le_def] at h <;> omega

/-! ## U4 -/

theorem byte_msb_false (d : Byte) : d.getLsbD 7 = false ↔ d.toNat < 128 := by
  rw [BitVec.getLsbD, Nat.testBit_eq_decide_div_mod_eq]
  simp only [decide_eq_false_iff_not]
  omega

theorem byte_lsb_false (d : Byte) : d.getLsbD 0 = false ↔ d.toNat % 2 = 0 := by
  rw [BitVec.getLsbD, Nat.testBit_eq_decide_div_mod_eq]
  simp only [decide_eq_false_iff_not]
  omega

/-- The loop of `bshift8` (42 R110): it stops after `k` shifts, the first count at which a condition fails. -/
theorem bshift8Loop_spec (left : Nat) (src dst n : Byte) :
    ∃ k, k ≤ left ∧ (bshift8Loop left src dst n).src.toNat = src.toNat / 2 ^ k ∧
      (bshift8Loop left src dst n).dst.toNat = dst.toNat * 2 ^ k ∧
      (bshift8Loop left src dst n).cnt = n + BitVec.ofNat 8 k ∧
      (∀ j < k, 1 < src.toNat / 2 ^ j ∧ dst.toNat * 2 ^ j < 2 ^ 7) ∧
      (k = left ∨ src.toNat / 2 ^ k ≤ 1 ∨ 2 ^ 7 ≤ dst.toNat * 2 ^ k) := by
  induction left generalizing src dst n with
  | zero => exact ⟨0, by simp [bshift8Loop]⟩
  | succ left ih =>
    rw [bshift8Loop]
    split
    · rename_i h
      obtain ⟨hs, hd⟩ := h
      rw [byte_msb_false] at hd
      have hs : 1 < src.toNat := hs
      have hs' : (src >>> 1).toNat = src.toNat / 2 := by simp [Nat.shiftRight_eq_div_pow]
      have hd' : (dst <<< 1).toNat = dst.toNat * 2 := by
        rw [BitVec.toNat_shiftLeft, Nat.shiftLeft_eq]; omega
      obtain ⟨k, hk, h1, h2, h3, h4, h5⟩ := ih (src >>> 1) (dst <<< 1) (n + 1)
      rw [hs'] at h1 h4 h5
      rw [hd'] at h2 h4 h5
      have e1 : ∀ j, src.toNat / 2 / 2 ^ j = src.toNat / 2 ^ (j + 1) := fun j => by
        rw [Nat.div_div_eq_div_mul, Nat.pow_succ, Nat.mul_comm]
      have e2 : ∀ j, dst.toNat * 2 * 2 ^ j = dst.toNat * 2 ^ (j + 1) := fun j => by
        rw [Nat.pow_succ]; ring
      simp only [e1, e2] at h1 h2 h4 h5
      refine ⟨k + 1, by omega, h1, h2, ?_, ?_, ?_⟩
      · rw [h3, BitVec.ofNat_add, BitVec.add_comm (BitVec.ofNat 8 k), ← BitVec.add_assoc]; rfl
      · intro j hj
        rcases j with _ | j
        · simpa using ⟨hs, hd⟩
        · exact h4 j (by omega)
      · rcases h5 with h5 | h5 | h5
        · exact .inl (by omega)
        · exact .inr (.inl h5)
        · exact .inr (.inr h5)
    · rename_i h
      refine ⟨0, by simp, by simp, by simp, by simp, by simp, .inr ?_⟩
      rw [byte_msb_false] at h
      have : ¬ (1 < src.toNat ∧ dst.toNat < 128) := h
      simp only [pow_zero, Nat.div_one, Nat.mul_one]
      omega

/-- `bshift8` (42 R110, R111 (a), (b), (c)). -/
theorem bshift8_spec (src dst max : Byte) :
    ∃ k, k ≤ max.toNat ∧ k ≤ 7 ∧ (bshift8 src dst max).src.toNat = src.toNat / 2 ^ k ∧
      (bshift8 src dst max).dst.toNat = dst.toNat * 2 ^ k ∧
      (bshift8 src dst max).cnt.toNat = k ∧
      (∀ j < k, src.toNat ≠ 0 ∧ dst.toNat ≠ 0 ∧ 1 < src.toNat / 2 ^ j ∧ dst.toNat * 2 ^ j < 2 ^ 7) ∧
      (src.toNat = 0 ∨ dst.toNat = 0 ∨ k = max.toNat ∨ src.toNat / 2 ^ k ≤ 1 ∨ 2 ^ 7 ≤ dst.toNat * 2 ^ k) := by
  have z : ∀ b : Byte, b = 0 ↔ b.toNat = 0 := fun b => by rw [← BitVec.toNat_inj]; rfl
  unfold bshift8
  split
  · rename_i h
    rw [z, z] at h
    exact ⟨0, by simp, by simp, by simp, by simp, by simp, by simp, h.elim .inl fun h => .inr (.inl h)⟩
  · rename_i h
    rw [z, z, not_or] at h
    obtain ⟨k, hk, h1, h2, h3, h4, h5⟩ := bshift8Loop_spec max.toNat src dst 0
    have hlt := (bshift8Loop max.toNat src dst 0).dst.isLt
    rw [h2] at hlt
    have hk7 : k ≤ 7 := by
      by_contra hc
      have : 2 ^ 8 ≤ 2 ^ k := Nat.pow_le_pow_right (by omega) (by omega)
      have : 1 * 2 ^ k ≤ dst.toNat * 2 ^ k := Nat.mul_le_mul_right _ (by omega)
      omega
    refine ⟨k, hk, hk7, h1, h2, ?_, fun j hj => ⟨h.1, h.2, h4 j hj⟩, .inr (.inr h5)⟩
    rw [h3]
    simp only [BitVec.zero_add, BitVec.ofNat_eq_ofNat, BitVec.toNat_ofNat]
    omega

/-- The overflow test of `bshift16` (42 R113, R114): the top `steps` bits are clear exactly when one more shift by `steps`
fits 16 bits. -/
theorem and_ovfMask (d : Half) (steps : Byte) (h : steps = 1 ∨ steps = 2) :
    d &&& ovfMask steps = 0 ↔ d.toNat * 2 ^ steps.toNat < 2 ^ 16 := by
  have hd := d.isLt
  have hbit : ∀ k, (d.toNat.testBit k).toNat = d.toNat / 2 ^ k % 2 := fun k => by
    rw [Nat.testBit_eq_decide_div_mod_eq]
    rcases Nat.mod_two_eq_zero_or_one (d.toNat / 2 ^ k) with h | h <;> simp [h]
  rw [← BitVec.toNat_inj, BitVec.toNat_and]
  rcases h with rfl | rfl
  · have e : (ovfMask 1).toNat = 2 ^ 15 := by decide
    rw [e, Nat.and_two_pow, hbit]
    show _ * 2 ^ 15 = 0 ↔ d.toNat * 2 < 2 ^ 16
    omega
  · have e : (ovfMask 2).toNat = 2 ^ 15 ||| 2 ^ 14 := by decide
    rw [e, Nat.and_or_distrib_left, Nat.and_two_pow, Nat.and_two_pow, hbit, hbit]
    show _ ||| _ = 0 ↔ d.toNat * 4 < 2 ^ 16
    rw [Nat.or_eq_zero_iff]
    omega

/-- The loop of `bshift16` (42 R113): it stops after `k` shifts, the first count at which a condition fails. -/
theorem bshift16Loop_spec (steps : Byte) (hs : steps = 1 ∨ steps = 2) (left : Nat) (src : Byte) (dst : Half) (n : Byte) :
    ∃ k, k ≤ left ∧ (bshift16Loop steps left src dst n).src.toNat * 2 ^ k = src.toNat ∧
      (bshift16Loop steps left src dst n).dst.toNat = dst.toNat * 2 ^ (k * steps.toNat) ∧
      (bshift16Loop steps left src dst n).cnt = n + BitVec.ofNat 8 k ∧
      (∀ j < k, src.toNat / 2 ^ j % 2 = 0 ∧ dst.toNat * 2 ^ (j * steps.toNat + steps.toNat) < 2 ^ 16) ∧
      (k = left ∨ src.toNat / 2 ^ k % 2 = 1 ∨ 2 ^ 16 ≤ dst.toNat * 2 ^ (k * steps.toNat + steps.toNat)) := by
  induction left generalizing src dst n with
  | zero => exact ⟨0, by simp [bshift16Loop]⟩
  | succ left ih =>
    rw [bshift16Loop]
    split
    · rename_i h
      obtain ⟨hb, hd⟩ := h
      rw [byte_lsb_false] at hb
      rw [and_ovfMask dst steps hs] at hd
      have hs' : (src >>> 1).toNat = src.toNat / 2 := by simp [Nat.shiftRight_eq_div_pow]
      have hd' : (dst <<< steps.toNat).toNat = dst.toNat * 2 ^ steps.toNat := by
        rw [BitVec.toNat_shiftLeft, Nat.shiftLeft_eq]; omega
      obtain ⟨k, hk, h1, h2, h3, h4, h5⟩ := ih (src >>> 1) (dst <<< steps.toNat) (n + 1)
      rw [hs'] at h1 h4 h5
      rw [hd'] at h2 h4 h5
      have e1 : ∀ j, src.toNat / 2 / 2 ^ j = src.toNat / 2 ^ (j + 1) := fun j => by
        rw [Nat.div_div_eq_div_mul, Nat.pow_succ, Nat.mul_comm]
      have e2 : ∀ j, dst.toNat * 2 ^ steps.toNat * 2 ^ (j * steps.toNat)
          = dst.toNat * 2 ^ ((j + 1) * steps.toNat) := fun j => by
        rw [Nat.add_mul, Nat.pow_add]; ring
      have e3 : ∀ j, dst.toNat * 2 ^ steps.toNat * 2 ^ (j * steps.toNat + steps.toNat)
          = dst.toNat * 2 ^ ((j + 1) * steps.toNat + steps.toNat) := fun j => by
        rw [Nat.add_mul, Nat.pow_add, Nat.pow_add, Nat.pow_add]; ring
      simp only [e1, e2, e3] at h2 h4 h5
      refine ⟨k + 1, by omega, ?_, h2, ?_, ?_, ?_⟩
      · rw [Nat.pow_succ, ← Nat.mul_assoc, h1]; omega
      · rw [h3, BitVec.ofNat_add, BitVec.add_comm (BitVec.ofNat 8 k), ← BitVec.add_assoc]; rfl
      · intro j hj
        rcases j with _ | j
        · simpa using ⟨hb, hd⟩
        · exact h4 j (by omega)
      · rcases h5 with h5 | h5 | h5
        · exact .inl (by omega)
        · exact .inr (.inl h5)
        · exact .inr (.inr h5)
    · rename_i h
      refine ⟨0, by simp, by simp, by simp, by simp, by simp, .inr ?_⟩
      rw [byte_lsb_false, and_ovfMask dst steps hs] at h
      simp only [pow_zero, Nat.div_one, Nat.zero_mul, Nat.zero_add]
      omega

/-- `bshift16` with `steps` 1 or 2 (42 R113, R115 (a), (b), (c)). -/
theorem bshift16_spec (src : Byte) (dst : Half) (max steps : Byte) (hs : steps = 1 ∨ steps = 2) :
    ∃ k, k ≤ max.toNat ∧ k ≤ 7 ∧ (bshift16 src dst max steps).src.toNat * 2 ^ k = src.toNat ∧
      (bshift16 src dst max steps).dst.toNat = dst.toNat * 2 ^ (k * steps.toNat) ∧
      (bshift16 src dst max steps).cnt.toNat = k ∧
      (∀ j < k, src.toNat ≠ 0 ∧ dst.toNat ≠ 0 ∧ src.toNat / 2 ^ j % 2 = 0 ∧
        dst.toNat * 2 ^ (j * steps.toNat + steps.toNat) < 2 ^ 16) ∧
      (src.toNat = 0 ∨ dst.toNat = 0 ∨ k = max.toNat ∨ src.toNat / 2 ^ k % 2 = 1 ∨
        2 ^ 16 ≤ dst.toNat * 2 ^ (k * steps.toNat + steps.toNat)) := by
  have z : ∀ b : Byte, b = 0 ↔ b.toNat = 0 := fun b => by rw [← BitVec.toNat_inj]; rfl
  have z' : ∀ b : Half, b = 0 ↔ b.toNat = 0 := fun b => by rw [← BitVec.toNat_inj]; rfl
  unfold bshift16
  split
  · rename_i h
    rw [z, z'] at h
    exact ⟨0, by simp, by simp, by simp, by simp, by simp, by simp, h.elim .inl fun h => .inr (.inl h)⟩
  · rename_i h
    rw [z, z', not_or] at h
    obtain ⟨k, hk, h1, h2, h3, h4, h5⟩ := bshift16Loop_spec steps hs max.toNat src dst 0
    have hsrc := src.isLt
    have hk7 : k ≤ 7 := by
      by_contra hc
      have h8 : 2 ^ 8 ≤ 2 ^ k := Nat.pow_le_pow_right (by omega) (by omega)
      rcases Nat.eq_zero_or_pos (bshift16Loop steps max.toNat src dst 0).src.toNat with h0 | h0
      · rw [h0] at h1; omega
      · have : 1 * 2 ^ k ≤ (bshift16Loop steps max.toNat src dst 0).src.toNat * 2 ^ k := Nat.mul_le_mul_right _ h0
        omega
    refine ⟨k, hk, hk7, h1, h2, ?_, fun j hj => ⟨h.1, h.2, h4 j hj⟩, .inr (.inr h5)⟩
    rw [h3]
    simp only [BitVec.zero_add, BitVec.ofNat_eq_ofNat, BitVec.toNat_ofNat]
    omega

end Sys2Proof.Laws
end

