-- ==== Sys2Proof/Tests/Slice0.lean ====
section
/-! SUPPORT. Tests on fixed values, each expected result taken from spec 95 (or worked by hand from the rule named), and for
every obligation that has hypotheses a named witness that meets them. -/

namespace Sys2Proof.Tests

open Sys2Proof Sys2Proof.Machine Sys2Proof.Safety

/-! ## Helpers -/

/-- The reset state with a sequencer state, a count and `oks` answers `OK` to come. -/
def ready (q : SeqState) (n : Word) (oks : Nat) : State :=
  { State.reset with st := q, n := n, answers := List.replicate oks .ok }

/-- The reset state with a word offered. -/
def offered (c : Cmd) : State := { State.reset with host := [.command c] }

/-- The last response after an outcome. -/
def reply : Host.Outcome State Fault Refusal → Option Response
  | .next t => t.responses.getLast?
  | _ => none

/-- The beats after an outcome, as bytes with their markers. -/
def sentBytes : Host.Outcome State Fault Refusal → Option (List (Byte × Bool))
  | .next t => some (t.tx.map fun b => (b.byte, b.last))
  | _ => none

/-- Sequencer, count and `STATUS` after an outcome. -/
def seqAfter : Host.Outcome State Fault Refusal → Option (SeqState × Word × Word)
  | .next t => some (t.st, t.n, statusWord t)
  | _ => none

/-- What a command responds from the reset state. -/
def answer (i : Instr) : Option Response := reply (exec i State.reset)

/-! ## WellFormed: a term each check refuses (30 R74 (c) to (h)) -/

theorem test_wf_steps_refused :
    (Instr.bshift16 16 1 4 0).wellFormed = false ∧ (Instr.bshift16 16 1 4 3).wellFormed = false := by decide
theorem test_wf_absent_correction_refused :
    (Instr.encperc8 1 1 1 1 false 1 0 0).wellFormed = false ∧ (Instr.encperc8 1 1 1 1 false 0 1 0).wellFormed = false ∧
    (Instr.encperc8 1 1 1 1 false 0 0 1).wellFormed = false := by decide
theorem test_wf_index_refused :
    (Instr.cfgrd 7).wellFormed = false ∧ (Instr.cfgrd 15).wellFormed = false ∧ (Instr.cfgwr 7 0).wellFormed = false := by
  decide
theorem test_wf_read_only_refused :
    (Instr.cfgwr 4 0).wellFormed = false ∧ (Instr.cfgwr 5 0).wellFormed = false ∧ (Instr.cfgwr 6 0).wellFormed = false := by
  decide
theorem test_wf_cfg0_refused :
    (Instr.cfgwr 0 6).wellFormed = false ∧ (Instr.cfgwr 0 7).wellFormed = false ∧ (Instr.cfgwr 0 0x100).wellFormed = false := by
  decide
theorem test_wf_corr_refused : (Instr.cfgwr 3 0x01000000).wellFormed = false := by decide
theorem test_wf_accepted :
    (Instr.bshift16 16 1 4 1).wellFormed = true ∧ (Instr.encperc8 1 1 1 1 true 1 0 0).wellFormed = true ∧
    (Instr.cfgrd 6).wellFormed = true ∧ (Instr.cfgwr 0 0xFD).wellFormed = true ∧
    (Instr.cfgwr 3 0x00FFFFFF).wellFormed = true := by decide

/-! ## Decoding: words written out from R63, R65 (spec 95), one per constructor -/

theorem test_decode_begin : decode 0x1000000000000000 = .ok .beginFrame := by decide
theorem test_decode_pixdev : decode 0x2000000005AABBCC = .ok (.pixdev 5 0xAA 0xBB 0xCC) := by decide
theorem test_decode_pixlin16 : decode 0x30C8123456780ABC = .ok (.pixlin16 200 0x1234 0x5678 0x0ABC) := by decide
theorem test_decode_pixperc8 : decode 0x40000000FFFF7F2B = .ok (.pixperc8 255 255 127 43) := by decide
theorem test_decode_end : decode 0x5000000000000000 = .ok .endFrame := by decide
theorem test_decode_cfgwr : decode 0x630000000080FF00 = .ok (.cfgwr 3 0x0080FF00) := by decide
theorem test_decode_cfgrd : decode 0x7F00000000000000 = .ok (.cfgrd 15) := by decide
theorem test_decode_gamma : decode 0x80000000000000FE = .ok (.gamma 254) := by decide
theorem test_decode_scale : decode 0x9000000000123456 = .ok (.scale 0x1234 86) := by decide
theorem test_decode_map : decode 0xA00000000000BFFF = .ok (.map 0xBFFF) := by decide
theorem test_decode_bshift8 : decode 0xB000000000024003 = .ok (.bshift8 64 3 2) := by decide
theorem test_decode_bshift16 : decode 0xC0000002040800FF = .ok (.bshift16 8 0x00FF 4 2) := by decide
theorem test_decode_enclin16 : decode 0xD0C8123456780ABC = .ok (.enclin16 200 0x1234 0x5678 0x0ABC) := by decide
theorem test_decode_encperc8 : decode 0xE1FF8000FFFF7F2B = .ok (.encperc8 255 255 127 43 true 255 128 0) := by decide
/-- 95 section 2.9. -/
theorem test_decode_reserved_opcode :
    decode 0x0123456789ABCDEF = .error .reservedOpcode ∧ decode 0xFFFFFFFFFFFFFFFF = .error .reservedOpcode := by decide
/-- 95 sections 2.1 to 2.8. -/
theorem test_decode_reserved_bits :
    decode 0x1000000000000001 = .error .reservedBits ∧ decode 0x2000000100000000 = .error .reservedBits ∧
    decode 0x6000000100000000 = .error .reservedBits ∧ decode 0x7000000000000001 = .error .reservedBits ∧
    decode 0x8000000000000100 = .error .reservedBits ∧ decode 0x9000000001000000 = .error .reservedBits ∧
    decode 0xA000000000010000 = .error .reservedBits ∧ decode 0xB000000001000000 = .error .reservedBits ∧
    decode 0xE200000001010101 = .error .reservedBits := by decide
theorem test_decodeTableWord : decodeTableWord 64 0x7600000000000000 = some (.cfgrd 6) := by decide

/-! ## Compute commands (spec 95 sections 2.2 to 2.6) -/

theorem test_scale_zero_guard : answer (.scale 0xFFFF 0) = some ⟨.ok, 0⟩ := by decide
theorem test_scale_truncates : answer (.scale 0x1234 86) = some ⟨.ok, 0x0000062F⟩ := by decide
theorem test_map_source_point : answer (.map 0xBFFF) = some ⟨.ok, 0x000000C0⟩ := by decide
theorem test_map_clamps : answer (.map 0xFF80) = some ⟨.ok, 0x000000FF⟩ := by decide
theorem test_bshift8_stops_at_max : answer (.bshift8 64 3 2) = some ⟨.ok, 0x0002100C⟩ := by decide
theorem test_bshift8_odd_source : answer (.bshift8 255 16 4) = some ⟨.ok, 0x00031F80⟩ := by decide
theorem test_bshift16_stops_at_mask : answer (.bshift16 16 0x0100 4 2) = some ⟨.ok, 0x03024000⟩ := by decide
theorem test_bshift16_steps_refused : answer (.bshift16 16 0x0100 4 3) = some ⟨.illegal, 0⟩ := by decide
/-- Brightness 1, one channel 1: `s1` = 4, `s2` = 0, so brightness 1 and the channel scaled by 16 rounds to 0 (43 R121). -/
theorem test_enclin16_dim : answer (.enclin16 1 1 0 0) = some ⟨.ok, 0x01000000⟩ := by decide
/-- S6: zero brightness dominates. -/
theorem test_enclin16_zero_brightness : answer (.enclin16 0 0xFFFF 0xFFFF 0xFFFF) = some ⟨.ok, 0⟩ := by decide
theorem test_encperc8_zero_brightness : answer (.encperc8 0 255 255 255 true 1 2 3) = some ⟨.ok, 0⟩ := by decide
theorem test_encperc8_absent_correction_refused : answer (.encperc8 1 1 1 1 false 1 0 0) = some ⟨.illegal, 0⟩ := by decide
/-- 40 R94: the ROM entry, zero-extended; nothing else is known of it. -/
theorem test_gamma_answers (i : Byte) : answer (.gamma i) = some ⟨.ok, (Config.gamma i).setWidth 32⟩ := rfl

/-! ## Register commands (spec 95 section 2.8) -/

theorem test_cfgrd_reset_cfg0 : answer (.cfgrd 0) = some ⟨.ok, 0x00000005⟩ := by decide
theorem test_cfgrd_reserved : answer (.cfgrd 7) = some ⟨.illegal, 0⟩ := by decide
theorem test_cfgwr_largest_cfg0 : answer (.cfgwr 0 0xFD) = some ⟨.ok, 0⟩ := by decide
/-- `ILLEGAL` outranks `PROTO` (95 section 2.7). -/
theorem test_cfgwr_illegal_outranks_proto :
    seqAfter (exec (.cfgwr 4 0) (ready .framing 3 0)) = some (.framing, 3, 0x11) := by decide

/-! ## Frame commands (spec 95 section 2.7) -/

theorem test_begin_restarts :
    sentBytes (exec .beginFrame (ready .framing 3 4)) = some [(0, false), (0, false), (0, false), (0, true)] ∧
    seqAfter (exec .beginFrame (ready .framing 3 4)) = some (.framing, 0, 0x01) := by decide
theorem test_begin_fails_on_last_beat :
    seqAfter (exec .beginFrame { ready .idle 0 0 with answers := [.ok, .ok, .ok, .err 0x77] }) = some (.aborted, 0, 0x07) := by
  decide
theorem test_pixdev_bgr_masked :
    sentBytes (exec (.pixdev 0x25 1 2 3) (ready .framing 0 4)) = some [(0xE5, false), (3, false), (2, false), (1, true)] := by
  decide
theorem test_pixdev_overflow :
    seqAfter (exec (.pixdev 1 2 3 4) (ready .framing 0xFFFFFFFF 4)) = some (.framing, 0xFFFFFFFF, 0x21) := by decide
theorem test_pixlin16_refused_when_ended :
    seqAfter (exec (.pixlin16 1 1 1 1) (ready .ended 17 4)) = some (.ended, 17, 0x0A) := by decide
theorem test_pixlin16_zero_brightness :
    sentBytes (exec (.pixlin16 0 0xFFFF 1 2) (ready .framing 0 4)) = some [(0xE0, false), (0, false), (0, false), (0, true)] := by
  decide
theorem test_pixperc8_flushed :
    seqAfter (exec (.pixperc8 1 1 1 1) (ready .aborted 1 4)) = some (.aborted, 1, 0x03) := by decide
theorem test_pixperc8_zero_brightness :
    sentBytes (exec (.pixperc8 0 255 255 255) (ready .framing 0 4)) =
      some [(0xE0, false), (0, false), (0, false), (0, true)] := by decide
theorem test_end_reset_frame_and_fixed :
    sentBytes (exec .endFrame { ready .framing 0 5 with cfg0 := 0x5D, endCount := 1 }) =
      some [(0, false), (0, false), (0, false), (0, true), (0xFF, true)] := by decide
theorem test_end_derived :
    sentBytes (exec .endFrame (ready .framing 17 2)) = some [(0, false), (0, true)] ∧
    seqAfter (exec .endFrame (ready .framing 17 2)) = some (.ended, 17, 0x02) := by decide

/-! ## The step -/

theorem test_step_runs_offered_word :
    reply (step (State.reset.withFetchWord 64 0x9000000000123456)) = some ⟨.ok, 0x0000062F⟩ := by decide
theorem test_step_refuses_word : seqAfter (step (offered 0xF000000000000000)) = some (.idle, 0, 0x10) := by decide

/-! ## Witnesses: the hypotheses of the obligations can be met -/

theorem test_witness_EveryCommandWordHasOneSpelling : decode 0xE1FF8000FFFF7F2B = .ok (.encperc8 255 255 127 43 true 255 128 0) :=
  test_decode_encperc8

theorem test_witness_NoWordMeetsTwoRows :
    ∃ (c : Cmd) (r r' : OpRow), opRows[4]? = some r ∧ opRows[4]? = some r' ∧ r.hit c = true ∧ r'.hit c = true :=
  ⟨0x5000000000000000, _, _, rfl, rfl, by decide, by decide⟩

theorem test_witness_StepRunsDecodedCommand :
    (offered 0x7600000000000000).waiting = false ∧
    (offered 0x7600000000000000).host = .command 0x7600000000000000 :: [] ∧
    decode 0x7600000000000000 = .ok (.cfgrd 6) := by decide

theorem test_witness_StepRefusesWordsThatAreNoCommand :
    (offered 0x1000000000000001).waiting = false ∧
    (offered 0x1000000000000001).host = .command 0x1000000000000001 :: [] ∧
    decode 0x1000000000000001 = .error .reservedBits := by decide

theorem test_witness_IllegalExactlyWhenMalformed :
    (Instr.cfgwr 3 0x01000000).wellFormed = false ∧
    (Instr.cfgwr 3 0x00FFFFFF).wellFormed = true ∧ ∃ t, exec (.cfgwr 3 0x00FFFFFF) State.reset = .next t :=
  ⟨by decide, by decide, _, rfl⟩

/-- Also while a beat is unanswered. -/
theorem test_witness_ResetFromEveryState :
    ({ ready .aborted 9 0 with waiting := true, host := [.reset] } : State).host = .reset :: [] := rfl

theorem test_witness_BlockWaitsForTransportOrHost :
    (let s : State := { ready .framing 1 0 with waiting := true, host := [.command 0x5000000000000000] }
     s.waiting = true ∧ s.host.head? ≠ some .reset) ∧
    (State.reset.waiting = false ∧ State.reset.host = []) := by decide

/-- A step that writes `CFG0`. -/
theorem test_witness_StepKeepsRegistersLegal :
    RegsLegal (offered 0x60000000000000FD) ∧ ∃ t, step (offered 0x60000000000000FD) = .next t ∧ t.cfg0 = 0xFD :=
  ⟨by decide, _, rfl, rfl⟩

/-- The code 1 is legal for every `ERR_W`: its bits are kept (10 R23). -/
theorem test_errBits_one : errBits 1 = 1 := Laws.errBits_of_lt (Nat.one_lt_two_pow (Nat.succ_ne_zero _))

/-- A step that takes a transport error, its code 1, after one with a beat and an `XERR` response on record. -/
theorem test_witness_StepKeepsErrorCodeWidth :
    let s : State :=
      { offered 0x1000000000000000 with answers := [.ok, .err 1], tx := [⟨0, false, .err 1⟩], responses := [⟨.xerr, 1⟩] }
    ErrLegal s ∧ ∃ t, step s = .next t ∧ t.errCode = 1 := by
  have h : (1 : Word).toNat < 2 ^ Config.errW := Nat.one_lt_two_pow (Nat.succ_ne_zero _)
  refine ⟨⟨Nat.two_pow_pos _, ?_, ?_⟩, _, rfl, test_errBits_one⟩
  · intro b hb
    rw [List.mem_singleton.mp hb]
    exact h
  · intro r hr _
    rw [List.mem_singleton.mp hr]
    exact h

theorem test_witness_StepKeepsAbortRecorded :
    let s : State := { offered 0x1000000000000000 with answers := [.ok, .err 1] }
    AbortRecorded s ∧ ∃ t, step s = .next t ∧ t.st = .aborted :=
  ⟨by decide, _, rfl, rfl⟩

/-- A legal state for each outcome. -/
theorem test_witness_LegalStateStopsOnlyOnSilentTransport :
    RegsLegal State.reset ∧ RegsLegal { State.reset with waiting := true } := by decide

/-- A command that responds and one that stalls. -/
theorem test_witness_OneResponsePerCommand :
    (∃ t, exec .beginFrame (ready .idle 0 4) = .next t ∧ t.waiting = false) ∧
    (∃ t, exec .beginFrame (ready .idle 0 3) = .next t ∧ t.waiting = true) :=
  ⟨⟨_, rfl, rfl⟩, _, rfl, rfl⟩

/-- A step that presents beats, by the command it runs. -/
theorem test_witness_PortRecordsOnlyGrow :
    ∃ t, step (offered 0x1000000000000000) = .next t ∧ t.tx = [⟨0, false, .silent⟩] ∧
      OffersFirst .beginFrame (offered 0x1000000000000000) :=
  ⟨_, rfl, by decide, _, rfl, by decide⟩

/-- `BEGIN` completing, failing and stalling; a pixel command refused, counted and failing; `END`; `GAMMA`. -/
theorem test_witness_SequencerMoves :
    (∃ t, exec .beginFrame (ready .ended 5 4) = .next t ∧ t.st = .framing) ∧
    (∃ t, exec .beginFrame { ready .ended 5 0 with answers := [.err 1] } = .next t ∧ t.st = .aborted) ∧
    (∃ t, exec .beginFrame (ready .ended 5 0) = .next t ∧ t.st = .ended ∧ t.waiting = true) ∧
    (∃ t, exec (.pixdev 1 2 3 4) (ready .ended 5 4) = .next t ∧ t.st = .ended) ∧
    (∃ t, exec (.pixdev 1 2 3 4) (ready .framing 0xFFFFFFFE 4) = .next t ∧ t.n = 0xFFFFFFFF) ∧
    (∃ t, exec (.pixdev 1 2 3 4) { ready .framing 5 0 with answers := [.err 1] } = .next t ∧ t.st = .aborted) ∧
    (∃ t, exec .endFrame (ready .framing 5 1) = .next t ∧ t.st = .ended) ∧
    (∃ t, exec .endFrame (ready .idle 0 1) = .next t ∧ t.st = .idle) ∧
    (∃ t, exec (.gamma 0) (ready .framing 5 0) = .next t) :=
  ⟨⟨_, rfl, rfl⟩, ⟨_, rfl, rfl⟩, ⟨_, rfl, rfl, rfl⟩, ⟨_, rfl, rfl⟩, ⟨_, rfl, rfl⟩, ⟨_, rfl, rfl⟩, ⟨_, rfl, rfl⟩, ⟨_, rfl, rfl⟩,
    _, rfl⟩

/-- Out of `ABORTED` by `BEGIN`, and by reset. -/
theorem test_witness_AbortedLeftOnlyByBeginOrReset :
    (∃ t, step { ready .aborted 1 4 with host := [.command 0x1000000000000000] } = .next t ∧ t.st = .framing) ∧
    (∃ t, step { ready .aborted 1 4 with host := [.reset] } = .next t ∧ t.st = .idle) :=
  ⟨⟨_, rfl, rfl⟩, _, rfl, rfl⟩

theorem test_witness_FlagsClearedOnlyByReset :
    let s : State := { offered 0x7400000000000000 with xerr := true, proto := true, ill := true, ovf := true }
    ¬ ResetFirst s ∧ ∃ t, step s = .next t ∧ t.responses = [⟨.ok, 0x3C⟩] :=
  ⟨by decide, _, rfl, by decide⟩

/-- A response of each code that sets a flag, and one of each that sets none. -/
theorem test_witness_FlagsSetByMatchingResponse :
    (∃ t, exec .beginFrame { State.reset with answers := [.err 1] } = .next t ∧ t.responses = [] ++ [⟨.xerr, errBits 1⟩]) ∧
    (∃ t, exec .endFrame State.reset = .next t ∧ t.responses = [] ++ [⟨.proto, 0⟩]) ∧
    (∃ t, exec (.cfgrd 15) State.reset = .next t ∧ t.responses = [] ++ [⟨.illegal, 0⟩]) ∧
    (∃ t, exec (.pixdev 1 2 3 4) (ready .framing 0xFFFFFFFF 0) = .next t ∧ t.responses = [] ++ [⟨.ovf, 0⟩]) ∧
    (∃ t, exec .endFrame (ready .aborted 0 0) = .next t ∧ t.responses = [] ++ [⟨.flushed, 0⟩]) ∧
    (∃ t, exec (.map 0) State.reset = .next t ∧ t.responses = [] ++ [⟨.ok, 0⟩]) :=
  ⟨⟨_, rfl, rfl⟩, ⟨_, rfl, rfl⟩, ⟨_, rfl, rfl⟩, ⟨_, rfl, rfl⟩, ⟨_, rfl, rfl⟩, _, rfl, by decide⟩

/-- By `CFGWR`, and by reset. -/
theorem test_witness_ConfigChangedOnlyByCfgwrOrReset :
    (∃ t, step (offered 0x60000000000000FD) = .next t ∧ t.cfg0 ≠ (offered 0x60000000000000FD).cfg0) ∧
    (let s : State := { State.reset with host := [.reset], corr := 0 }
     ∃ t, step s = .next t ∧ t.corr ≠ s.corr) :=
  ⟨⟨_, rfl, by decide⟩, _, rfl, by decide⟩

theorem test_witness_FlagsReadByNothing : Instr.endFrame ≠ .cfgrd 4 ∧ Instr.cfgrd 3 ≠ .cfgrd 4 := by decide

/-- Answered and refused, compute commands and `CFGRD`. -/
theorem test_witness_ComputeAndReadCommandsFrame :
    (isCompute (.enclin16 200 1 2 3) = true ∧ ∃ t, exec (.enclin16 200 1 2 3) State.reset = .next t) ∧
    (isCompute (.bshift16 1 1 1 0) = true ∧ ∃ t, exec (.bshift16 1 1 1 0) State.reset = .next t) ∧
    (∃ idx, Instr.cfgrd 6 = .cfgrd idx) ∧ (∃ t, exec (.cfgrd 6) State.reset = .next t) ∧
    (∃ t, exec (.cfgrd 7) State.reset = .next t) :=
  ⟨⟨rfl, _, rfl⟩, ⟨rfl, _, rfl⟩, ⟨6, rfl⟩, ⟨_, rfl⟩, _, rfl⟩

theorem test_witness_FrameCommandsRefusedOutsideFrameWrite :
    isPixel (.pixdev 1 2 3 4) = true ∧ isPixel (.pixlin16 1 2 3 4) = true ∧ isPixel (.pixperc8 1 2 3 4) = true ∧
    (ready .idle 0 0).st = .idle ∧ (ready .ended 17 0).st = .ended := by decide

theorem test_witness_FrameCommandsFlushedWhenAborted : isPixel (.pixperc8 1 2 3 4) = true ∧ (ready .aborted 1 0).st = .aborted := by
  decide

theorem test_witness_PixelRefusedAtCountMaximum :
    isPixel (.pixlin16 1 2 3 4) = true ∧ (ready .framing 0xFFFFFFFF 4).st = .framing ∧
    (ready .framing 0xFFFFFFFF 4).n.toNat = 2 ^ 32 - 1 := by decide

theorem test_witness_CfgwrRefusedDuringFrameWrite :
    (Instr.cfgwr 0 2).wellFormed = true ∧ (ready .framing 3 0).st = .framing := by decide

theorem test_witness_ReservedIndicesRefused : 7 ≤ (7#4).toNat ∧ 7 ≤ (15#4).toNat := by decide

/-- At the largest legal values. -/
theorem test_witness_CfgwrWritesRegister :
    (ready .aborted 1 0).st ≠ .framing ∧ (0xFD#32).toNat < 256 ∧ (0xFD#32).toNat % 8 ≤ 5 ∧
    (0x00FFFFFF#32).toNat < 2 ^ 24 := by decide

theorem test_witness_GammaTableAsStated : (0#8) < 255#8 ∧ (43#8) ≤ 43 ∧ (127#8) ≤ 127#8 := by decide

theorem test_witness_ScaleLaws :
    1 ≤ (1#8) ∧ (0x1234#16) ≤ 0xFFFF#16 ∧ (0#8) ≤ 1#8 := by decide

theorem test_witness_MapLaws : (0x7F#16) ≤ 0x80#16 := by decide

/-- The smallest and the largest power of two; a zero source, a zero destination. -/
theorem test_witness_Bshift8Laws :
    (1#8).toNat = 2 ^ 0 ∧ (128#8).toNat = 2 ^ 7 ∧ ((0#8) = 0 ∨ (5#8) = 0) ∧ ((5#8) = 0 ∨ (0#8) = 0) := by decide

theorem test_witness_Bshift16Result : (1#8 = 1 ∨ 1#8 = 2) ∧ (2#8 = 1 ∨ 2#8 = 2) := by decide

theorem test_witness_Bshift16Laws :
    (1#8 = 1 ∨ 1#8 = 2) ∧ (2#8 = 1 ∨ 2#8 = 2) ∧ ((0#8) = 0 ∨ (5#16) = 0) ∧ ((5#8) = 0 ∨ (0#16) = 0) := by decide

/-- The smallest and the largest brightness, with what step 3 makes of them (95 section 2.4: counts 4 and 0). -/
theorem test_witness_EncoderStepThreeClosedForm :
    ((1#8) ≠ 0 ∧ (encStep3 1 Work.reset).acc = 1 ∧ (encStep3 1 Work.reset).br = 16) ∧
    ((255#8) ≠ 0 ∧ (encStep3 255 Work.reset).acc = 16 ∧ (encStep3 255 Work.reset).br = 255) := by decide

theorem test_witness_EncoderStepFourClosedForm : (1#8) ≠ 0 ∧ ((1#16) ≠ 0 ∨ (0#16) ≠ 0 ∨ (0#16) ≠ 0) := by decide

/-- The three clauses: zero brightness; a black colour; one channel lit. -/
theorem test_witness_EncoderBrightnessRange :
    (encLin16 1 1 1 0 Work.reset).out.brt = 0 ∧ (encLin16 0 0 0 1 Work.reset).out.brt = 1 ∧
    (encLin16 0 0 1 1 Work.reset).out.brt = 1 := by decide

theorem test_witness_EncoderTreatsChannelsAlike :
    (encLin16 0xFFFF 0x8000 0 255 Work.reset).out = ⟨255, 128, 0, 31⟩ ∧
    (encLin16 0x8000 0xFFFF 0 255 Work.reset).out = ⟨128, 255, 0, 31⟩ ∧
    (encLin16 0xFFFF 0 0x8000 255 Work.reset).out = ⟨255, 0, 128, 31⟩ ∧
    (encLin16 0 0x8000 0xFFFF 255 Work.reset).out = ⟨0, 128, 255, 31⟩ := by decide

/-- With a correction, and without one. -/
theorem test_witness_Encperc8Result :
    (true = true ∨ ((9#8) = 0 ∧ (9#8) = 0 ∧ (9#8) = 0)) ∧ (false = true ∨ ((0#8) = 0 ∧ (0#8) = 0 ∧ (0#8) = 0)) := by decide

theorem test_witness_BeginCompletes : (ready .aborted 5 4).answers = List.replicate 4 .ok ++ [] := by decide

/-- At the last count a pixel command accepts. -/
theorem test_witness_PixdevCompletes :
    RegsLegal (ready .framing 0xFFFFFFFE 4) ∧ (ready .framing 0xFFFFFFFE 4).st = .framing ∧
    (ready .framing 0xFFFFFFFE 4).n ≠ 0xFFFFFFFF ∧ (ready .framing 0xFFFFFFFE 4).answers = List.replicate 4 .ok ++ [] := by
  decide

theorem test_witness_Pixlin16Completes :
    RegsLegal (ready .framing 0 4) ∧ (ready .framing 0 4).st = .framing ∧ (ready .framing 0 4).n ≠ 0xFFFFFFFF ∧
    (ready .framing 0 4).answers = List.replicate 4 .ok ++ [] := by decide

theorem test_witness_Pixperc8Completes :
    let s : State := { ready .framing 0 5 with cfg0 := 0x85, corr := 0x0080FF00 }
    RegsLegal s ∧ s.st = .framing ∧ s.n ≠ 0xFFFFFFFF ∧ s.answers = List.replicate 4 .ok ++ [.ok] := by decide

theorem test_witness_Pixlin16IsPixdevOfEnclin16 :
    ∃ t, exec (.enclin16 255 0xFFFF 0x8000 0) State.reset = .next t ∧
      t.responses = State.reset.responses ++ [⟨.ok, 0x1FFF8000⟩] :=
  ⟨_, rfl, by decide⟩

/-- Derived with an empty end frame, and fixed after a reset frame. -/
theorem test_witness_EndCompletes :
    (let s := ready .framing 0 0
     s.st = .framing ∧ s.answers = List.replicate (endBeats s s.n.toNat).length .ok ++ []) ∧
    (let s : State := { ready .framing 0 5 with cfg0 := 0x5D, endCount := 1 }
     s.st = .framing ∧ s.answers = List.replicate (endBeats s s.n.toNat).length .ok ++ []) := by decide

/-- The first beat of `BEGIN`, the last of a pixel frame, the only one of an end frame. -/
theorem test_witness_TransportErrorAborts :
    (let s : State := { State.reset with answers := [.err 1] }
     RegsLegal s ∧ Executes .beginFrame s ∧ (planned .beginFrame s)[0]? = some (0, false) ∧
       s.answers = List.replicate 0 .ok ++ .err 1 :: []) ∧
    (let s : State := { ready .framing 0 0 with answers := [.ok, .ok, .ok, .err 1, .ok] }
     RegsLegal s ∧ Executes (.pixdev 1 2 3 4) s ∧ (planned (.pixdev 1 2 3 4) s)[3]? = some (2, true) ∧
       s.answers = List.replicate 3 .ok ++ .err 1 :: [.ok]) ∧
    (let s : State := { ready .framing 1 0 with answers := [.err 1] }
     RegsLegal s ∧ Executes .endFrame s ∧ (planned .endFrame s)[0]? = some (0, true) ∧
       s.answers = List.replicate 0 .ok ++ .err 1 :: []) :=
  ⟨⟨by decide, .inl rfl, by decide, rfl⟩, ⟨by decide, .inr (.inl ⟨rfl, rfl, by decide⟩), by decide, rfl⟩,
    ⟨by decide, .inr (.inr ⟨rfl, rfl⟩), by decide, rfl⟩⟩

/-- An answer that never comes, listed and beyond the list. -/
theorem test_witness_SilentTransportStalls :
    (let s : State := { State.reset with answers := [.ok, .silent] }
     RegsLegal s ∧ Executes .beginFrame s ∧ (planned .beginFrame s)[1]? = some (0, false) ∧
       s.answers = List.replicate 1 .ok ++ .silent :: []) ∧
    (let s := ready .framing 0 3
     RegsLegal s ∧ Executes (.pixdev 1 2 3 4) s ∧ (planned (.pixdev 1 2 3 4) s)[3]? = some (2, true) ∧
       s.answers = List.replicate 3 .ok) :=
  ⟨⟨by decide, .inl rfl, by decide, rfl⟩, ⟨by decide, .inr (.inl ⟨rfl, rfl, by decide⟩), by decide, rfl⟩⟩

/-- No pixel, and one. -/
theorem test_witness_WholeFrameWrite :
    (RegsLegal (ready .idle 0 4) ∧ ([] : List (Byte × Byte × Byte × Byte)).length < 2 ^ 32 ∧
      (ready .idle 0 4).answers = List.replicate (frameBeats (ready .idle 0 4) []).length .ok ++ []) ∧
    (RegsLegal (ready .ended 7 9) ∧ [((5 : Byte), (1 : Byte), (2 : Byte), (3 : Byte))].length < 2 ^ 32 ∧
      (ready .ended 7 9).answers = List.replicate (frameBeats (ready .ended 7 9) [(5, 1, 2, 3)]).length .ok ++ []) := by
  decide

end Sys2Proof.Tests
end

