-- ==== Sys2Proof/Proofs/LegalStateSteps.lean ====
section
/-! A state with legal registers has a next state, but for an unanswered beat (spec 00 R9, 30 R64, 70 R214). A command's only
stop is a reserved channel order, met by `EmitPixel` alone; a step's only other stop is an unanswered beat. -/

namespace Sys2Proof.Laws

open Sys2Proof.Machine Sys2Proof.Safety

/-- Every channel order that can occur selects bytes (30 R72). -/
theorem channelBytes_exists_some {order : BitVec 3} (h : order.toNat ≤ 5) (red grn blu : Byte) :
    ∃ c, channelBytes order red grn blu = some c := by
  generalize hn : order.toNat = n at h
  interval_cases n <;> exact ⟨_, by rw [channelBytes, hn]; rfl⟩

/-- A pixel frame is built under every channel order that can occur (44 R148). -/
theorem pixelFrame_exists_some {cfg0 : Word} (h : cfg0.toNat % 8 ≤ 5) (brt red grn blu : Byte) :
    ∃ f, pixelFrame cfg0 brt red grn blu = some f := by
  obtain ⟨c, hc⟩ := channelBytes_exists_some (order := chOrder cfg0) (by rwa [chOrder_toNat]) red grn blu
  exact ⟨_, by rw [pixelFrame, hc]⟩

theorem emitPixel_exists_next {s : State} (h : s.cfg0.toNat % 8 ≤ 5) (brt red grn blu : Byte) :
    ∃ t, emitPixel brt red grn blu s = .next t := by
  obtain ⟨f, hf⟩ := pixelFrame_exists_some h brt red grn blu
  exact ⟨_, by rw [emitPixel, hf]⟩

/-- The latch is emitted whatever the encoder has put into the working registers (44 R143, R144). -/
theorem emitLatch_exists_next {s : State} (h : s.cfg0.toNat % 8 ≤ 5) (w : Work) :
    ∃ t, emitLatch { s with w := w } = .next t :=
  emitPixel_exists_next (s := { s with w := w }) h _ _ _ _

/-- The admission table never stops the machine (44 R146). -/
theorem ifAdmitted_exists_next {g : CmdGroup} {s : State} {body : State → Host.Outcome State Fault Refusal}
    (h : ∃ t, body s = .next t) : ∃ t, ifAdmitted g s body = .next t := by
  unfold ifAdmitted
  split
  · exact ⟨_, rfl⟩
  · exact h

/-- Nor do the admission and the counter check of a pixel command (44 R146, R147). -/
theorem pixelAdmitted_exists_next {s : State} {body : State → Host.Outcome State Fault Refusal}
    (h : ∃ t, body s = .next t) : ∃ t, ifAdmitted .pixelCmd s (fun s => ifCountable s body) = .next t := by
  refine ifAdmitted_exists_next ?_
  unfold ifCountable
  split
  · exact ⟨_, rfl⟩
  · exact h

theorem answerWith_exists_next (payload : Word) (s : State) : ∃ t, answerWith payload s = .next t :=
  ifAdmitted_exists_next ⟨_, rfl⟩

/-- A word-level check never stops the machine: what fails it is refused with `ILLEGAL` (30 R74). -/
theorem ifLegal_exists_next {legal : Bool} {s : State} {o : Host.Outcome State Fault Refusal} (h : ∃ t, o = .next t) :
    ∃ t, (if legal then o else .next (raise .illegal s)) = .next t := by
  split
  · exact h
  · exact ⟨_, rfl⟩

/-- Every command gives a next state where `CFG0.CH_ORDER` holds no reserved value (10 R18). -/
theorem exec_exists_next (i : Instr) {s : State} (h : s.cfg0.toNat % 8 ≤ 5) : ∃ t, exec i s = .next t := by
  cases i with
  | beginFrame =>
    simp only [exec, execBegin]
    exact ifAdmitted_exists_next ⟨_, rfl⟩
  | pixdev brt red grn blu => exact pixelAdmitted_exists_next (emitPixel_exists_next h brt red grn blu)
  | pixlin16 brt r g b =>
    simp only [exec, execPixlin16]
    exact pixelAdmitted_exists_next (emitLatch_exists_next h _)
  | pixperc8 brt r g b =>
    simp only [exec, execPixperc8]
    exact pixelAdmitted_exists_next (emitLatch_exists_next h _)
  | endFrame =>
    simp only [exec, execEnd]
    exact ifAdmitted_exists_next ⟨_, rfl⟩
  | cfgwr idx val => exact ifLegal_exists_next (ifAdmitted_exists_next ⟨_, rfl⟩)
  | cfgrd idx =>
    simp only [exec, execCfgrd]
    split
    · exact ⟨_, rfl⟩
    · exact ifAdmitted_exists_next ⟨_, rfl⟩
  | gamma idx => exact answerWith_exists_next _ s
  | scale val sc => exact answerWith_exists_next _ s
  | map val => exact answerWith_exists_next _ s
  | bshift8 src dst max => exact answerWith_exists_next _ s
  | bshift16 src dst max steps => exact ifLegal_exists_next (answerWith_exists_next _ s)
  | enclin16 brt r g b => exact answerWith_exists_next _ _
  | encperc8 brt r g b cp cr cg cb => exact ifLegal_exists_next (answerWith_exists_next _ _)

/-- The block has no step only while a beat is unanswered and reset is not asserted (70 R214). -/
theorem stuckOnTransport_of_fetch {s : State} (h : fetch s = .stuck) : StuckOnTransport s := by
  rcases hh : s.host with _ | ⟨c | _, rest⟩ <;> simp only [fetch, hh] at h
  · by_cases hw : s.waiting = true
    · exact ⟨hw, by simp [hh]⟩
    · simp [hw] at h
  · by_cases hw : s.waiting = true
    · exact ⟨hw, by simp [hh]⟩
    · rcases hd : decode c with e | i <;> simp [hw, hd] at h
  · cases h

/-- Accepting a command takes its word off the host's list and does nothing else (20 R50). -/
theorem eq_takeEvent_of_fetch {s t : State} {i : Instr} (h : fetch s = .instr i t) : t = takeEvent s := by
  rcases hh : s.host with _ | ⟨c | _, rest⟩ <;> simp only [fetch, hh] at h
  · by_cases hw : s.waiting = true <;> simp [hw] at h
  · by_cases hw : s.waiting = true
    · simp [hw] at h
    · rw [if_neg hw] at h
      rcases hd : decode c with e | j <;> rw [hd] at h <;> cases h
      rfl
  · cases h

/-- Settles O16: of what `fetch` can find, only an unanswered beat is a stop, and a command that is accepted runs with the
channel order it found. -/
theorem legalStateStopsOnlyOnSilentTransport : Obligations.LegalStateStopsOnlyOnSilentTransport := by
  rintro s ⟨-, hOrder, -⟩
  unfold step
  cases hf : fetch s with
  | idle => exact .inl ⟨_, rfl⟩
  | stuck => exact .inr ⟨rfl, stuckOnTransport_of_fetch hf⟩
  | reset t => exact .inl ⟨_, rfl⟩
  | instr i t =>
    obtain rfl := eq_takeEvent_of_fetch hf
    exact .inl (exec_exists_next i hOrder)
  | illegal t => exact .inl ⟨_, rfl⟩

end Sys2Proof.Laws
end

