-- ==== Sys2Proof/Proofs/StepInvariants.lean ====
section
/-! What every step keeps (spec 10 R18, R21, R23): the fields that the updates of a frame command leave alone, the principle
that turns a claim about each effect of a command into one about every step, and the three invariants. -/

namespace Sys2Proof.Laws

open Sys2Proof.Machine Sys2Proof.Safety

/-! ## The updates of a frame command, field by field -/

section
variable (i : Instr) (s : State) (w : Work) (fb : FrameBuf) (bs : List Beat) (rest : List Answer) (bi : Nat) (ec : Word)

@[simp] theorem sent_cfg0 : (sent s bs rest bi ec).cfg0 = s.cfg0 := rfl
@[simp] theorem sent_corr : (sent s bs rest bi ec).corr = s.corr := rfl
@[simp] theorem sent_xerr : (sent s bs rest bi ec).xerr = s.xerr := rfl
@[simp] theorem sent_proto : (sent s bs rest bi ec).proto = s.proto := rfl
@[simp] theorem sent_ill : (sent s bs rest bi ec).ill = s.ill := rfl
@[simp] theorem sent_ovf : (sent s bs rest bi ec).ovf = s.ovf := rfl
@[simp] theorem sent_responses : (sent s bs rest bi ec).responses = s.responses := rfl

@[simp] theorem started_cfg0 : (started i s w fb).cfg0 = s.cfg0 := rfl
@[simp] theorem started_corr : (started i s w fb).corr = s.corr := rfl
@[simp] theorem started_xerr : (started i s w fb).xerr = s.xerr := rfl
@[simp] theorem started_proto : (started i s w fb).proto = s.proto := rfl
@[simp] theorem started_ill : (started i s w fb).ill = s.ill := rfl
@[simp] theorem started_ovf : (started i s w fb).ovf = s.ovf := rfl
@[simp] theorem started_responses : (started i s w fb).responses = s.responses := rfl

@[simp] theorem completed_cfg0 : (completed i s).cfg0 = s.cfg0 := by cases i <;> rfl
@[simp] theorem completed_corr : (completed i s).corr = s.corr := by cases i <;> rfl
@[simp] theorem completed_xerr : (completed i s).xerr = s.xerr := by cases i <;> rfl
@[simp] theorem completed_proto : (completed i s).proto = s.proto := by cases i <;> rfl
@[simp] theorem completed_ill : (completed i s).ill = s.ill := by cases i <;> rfl
@[simp] theorem completed_ovf : (completed i s).ovf = s.ovf := by cases i <;> rfl
@[simp] theorem completed_errCode : (completed i s).errCode = s.errCode := by cases i <;> rfl
@[simp] theorem completed_tx : (completed i s).tx = s.tx := by cases i <;> rfl
@[simp] theorem completed_responses : (completed i s).responses = s.responses := by cases i <;> rfl

end

/-! ## From the effects of a command to every step -/

/-- A step is idle, a reset, the refusal of a word that is no command, or one effect of the command offered (20 R50): what
each of these keeps, every step keeps. -/
theorem step_keeps {P : State → Prop} (hTake : ∀ s rest, P s → P { s with host := rest })
    (hReset : ∀ s, P s → P (resetEvent s)) (hIllegal : ∀ s, P s → P (raise .illegal s))
    (hEffect : ∀ i s t, P s → Effect i s t → P t) (s t : State) (hs : P s) (h : step s = .next t) : P t := by
  rcases step_cases h with ⟨-, rfl⟩ | ⟨rest, -, rfl⟩ | ⟨c, rest, e, -, -, rfl⟩ | ⟨c, rest, i, -, -, -, he⟩
  · exact hs
  · exact hReset _ (hTake s rest hs)
  · exact hIllegal _ (hTake s rest hs)
  · exact hEffect i _ t (hTake s rest hs) (exec_effect he)

/-! ## `CFG0` and `CORR` (10 R18, R21) -/

/-- What `CFGWR` lets through is no reserved value (45 R171). -/
theorem regsLegal_regWrite {idx : BitVec 4} {val : Word} {s : State} (hl : cfgwrLegal idx val = true)
    (hs : RegsLegal s) : RegsLegal (regWrite idx val s) := by
  obtain ⟨hCfg0, hOrder, hCorr⟩ := hs
  rcases (cfgwrLegal_iff idx val).mp hl with ⟨rfl, hByte, hVal⟩ | rfl | rfl | ⟨rfl, hVal⟩
  · exact ⟨hByte, hVal, hCorr⟩
  · exact ⟨hCfg0, hOrder, hCorr⟩
  · exact ⟨hCfg0, hOrder, hCorr⟩
  · exact ⟨hCfg0, hOrder, hVal⟩

theorem regsLegal_raise {x : Exn} {s : State} (hs : RegsLegal s) : RegsLegal (raise x s) := by
  simpa [RegsLegal] using hs

theorem regsLegal_reset : RegsLegal State.reset := by decide

/-- Of a command's effects only `CFGWR`'s reaches `CFG0` or `CORR`. -/
theorem regsLegal_effect (i : Instr) (s t : State) (hs : RegsLegal s) (h : Effect i s t) : RegsLegal t := by
  cases h with
  | refused x => exact regsLegal_raise hs
  | replied p w => exact hs
  | wrote idx val _ hl => exact regsLegal_regWrite hl hs
  | done w fb rest bi ec => simpa [RegsLegal] using hs
  | aborted w fb k e p rest bi ec => exact regsLegal_raise hs
  | silent w fb k p rest bi ec => exact hs

/-- Settles O12: `CFGWR` lets no reserved value through and nothing else writes the two registers but reset. -/
theorem stepKeepsRegistersLegal : Obligations.StepKeepsRegistersLegal :=
  step_keeps (fun _ _ hs => hs) (fun _ _ => regsLegal_reset) (fun _ => regsLegal_raise) regsLegal_effect

/-! ## The width of an error code (10 R23) -/

theorem answerLegal_okBeats {ps : List (Byte × Bool)} {b : Beat} (hb : b ∈ okBeats ps) : AnswerLegal b.answer := by
  obtain ⟨p, -, rfl⟩ := List.mem_map.mp hb
  trivial

/-- The beats on record of a run cut short: all but the last answered `OK`. -/
theorem answerLegal_lastBeat {ps : List (Byte × Bool)} {a : Answer} {p : Byte × Bool} (ha : AnswerLegal a) :
    ∀ b ∈ okBeats ps ++ [answered a p], AnswerLegal b.answer := by
  intro b hb
  rcases List.mem_append.mp hb with hb | hb
  · exact answerLegal_okBeats hb
  · obtain rfl := List.mem_singleton.mp hb
    exact ha

theorem errLegal_sent {s : State} {bs : List Beat} {rest : List Answer} {bi : Nat} {ec : Word} (hs : ErrLegal s)
    (hbs : ∀ b ∈ bs, AnswerLegal b.answer) : ErrLegal (sent s bs rest bi ec) := by
  obtain ⟨hCode, hTx, hResp⟩ := hs
  exact ⟨hCode, fun b hb => (List.mem_append.mp hb).elim (hTx b) (hbs b), hResp⟩

/-- A response carries a code of `ERR_W` bits, if it is an `XERR` at all. -/
theorem errLegal_respond {c : RespCode} {p : Word} {s : State} (hs : ErrLegal s)
    (hp : c = .xerr → p.toNat < 2 ^ Config.errW) : ErrLegal (respond c p s) := by
  obtain ⟨hCode, hTx, hResp⟩ := hs
  refine ⟨hCode, hTx, fun r hr hc => ?_⟩
  rcases List.mem_append.mp hr with hr | hr
  · exact hResp r hr hc
  · obtain rfl := List.mem_singleton.mp hr
    exact hp hc

/-- The block takes no bit of what the transport gives but the low `ERR_W` (60 R183). -/
theorem errLegal_raise {x : Exn} {s : State} (hs : ErrLegal s) : ErrLegal (raise x s) := by
  cases x with
  | xerr e =>
    obtain ⟨-, hTx, hResp⟩ := hs
    exact errLegal_respond (s := { setXerr s with errCode := errBits e, st := .aborted }) ⟨errBits_lt e, hTx, hResp⟩
      fun _ => errBits_lt e
  | proto => exact errLegal_respond (s := setProto s) hs nofun
  | illegal => exact errLegal_respond (s := setIll s) hs nofun
  | ovf => exact errLegal_respond (s := setOvf s) hs nofun
  | flushed => exact errLegal_respond hs nofun

theorem errLegal_reset : ErrLegal State.reset := ⟨Nat.two_pow_pos _, nofun, nofun⟩

/-- A reset clears `ERR_CODE` and keeps both records (70 R201). -/
theorem errLegal_resetEvent {s : State} (hs : ErrLegal s) : ErrLegal (resetEvent s) := by
  obtain ⟨-, hTx, hResp⟩ := hs
  exact ⟨Nat.two_pow_pos _, hTx, hResp⟩

theorem errLegal_regWrite {idx : BitVec 4} {val : Word} {s : State} (hs : ErrLegal s) : ErrLegal (regWrite idx val s) := by
  unfold regWrite
  split <;> exact hs

theorem errLegal_completed {i : Instr} {s : State} (hs : ErrLegal s) : ErrLegal (completed i s) := by
  simpa [ErrLegal] using hs

theorem errLegal_effect (i : Instr) (s t : State) (hs : ErrLegal s) (h : Effect i s t) : ErrLegal t := by
  cases h with
  | refused x => exact errLegal_raise hs
  | replied p w => exact errLegal_respond hs nofun
  | wrote idx val => exact errLegal_respond (errLegal_regWrite hs) nofun
  | done w fb rest bi ec =>
    exact errLegal_respond (errLegal_completed (errLegal_sent hs fun _ => answerLegal_okBeats)) nofun
  | aborted w fb k e p rest bi ec => exact errLegal_raise (errLegal_sent hs (answerLegal_lastBeat (errBits_lt e)))
  | silent w fb k p rest bi ec => exact errLegal_sent (rest := rest) (bi := bi) (ec := ec) hs (answerLegal_lastBeat trivial)

/-- Settles O13: an error code enters the block through `errBits` alone, on record, in `ERR_CODE` and in the response. -/
theorem stepKeepsErrorCodeWidth : Obligations.StepKeepsErrorCodeWidth :=
  step_keeps (fun _ _ hs => hs) (fun _ => errLegal_resetEvent) (fun _ => errLegal_raise) errLegal_effect

/-! ## An aborted frame write is on record (10 R23, 60 R183, R191) -/

/-- A transport error sets the flag with the code and the state; a refusal touches none of the three. -/
theorem abortRecorded_raise {x : Exn} {s : State} (hs : AbortRecorded s) : AbortRecorded (raise x s) := by
  cases x with
  | xerr e => exact ⟨nofun, fun _ => rfl⟩
  | proto => exact hs
  | illegal => exact hs
  | ovf => exact hs
  | flushed => exact hs

theorem abortRecorded_reset : AbortRecorded State.reset := ⟨fun _ => rfl, nofun⟩

theorem abortRecorded_regWrite {idx : BitVec 4} {val : Word} {s : State} (hs : AbortRecorded s) :
    AbortRecorded (regWrite idx val s) := by
  unfold regWrite
  split <;> exact hs

/-- No command completes into `ABORTED`, unless it was there. -/
theorem completed_st_cases (i : Instr) (s : State) :
    (completed i s).st = .framing ∨ (completed i s).st = .ended ∨ (completed i s).st = s.st := by
  cases i <;> simp [completed]

theorem abortRecorded_completed {i : Instr} {s : State} (hs : AbortRecorded s) : AbortRecorded (completed i s) := by
  obtain ⟨hCode, hSt⟩ := hs
  refine ⟨by simpa using hCode, fun hc => ?_⟩
  rw [completed_xerr]
  rcases completed_st_cases i s with h | h | h <;> rw [h] at hc
  · cases hc
  · cases hc
  · exact hSt hc

theorem abortRecorded_effect (i : Instr) (s t : State) (hs : AbortRecorded s) (h : Effect i s t) : AbortRecorded t := by
  cases h with
  | refused x => exact abortRecorded_raise hs
  | replied p w => exact hs
  | wrote idx val => exact abortRecorded_regWrite hs
  | done w fb rest bi ec =>
    exact abortRecorded_completed (s := sent (started i s w fb) (okBeats (presents i s)) rest bi ec) hs
  | aborted w fb k e p rest bi ec => exact abortRecorded_raise hs
  | silent w fb k p rest bi ec => exact hs

/-- Settles O14: the one exception that enters `ABORTED` or writes `ERR_CODE` sets `XERR` with it, and only reset clears
`XERR`. -/
theorem stepKeepsAbortRecorded : Obligations.StepKeepsAbortRecorded :=
  step_keeps (fun _ _ hs => hs) (fun _ _ => abortRecorded_reset) (fun _ => abortRecorded_raise) abortRecorded_effect

/-- Settles O15. -/
theorem invariantsHoldAtReset : Obligations.InvariantsHoldAtReset :=
  ⟨regsLegal_reset, errLegal_reset, abortRecorded_reset⟩

end Sys2Proof.Laws
end

