-- ==== Sys2Proof/Proofs/SequencerAndFlags.lean ====
section
/-! How a command moves the sequencer and its count (spec 10 R14, R15), and which sticky flag it sets (10 R16, 60 R181). -/

namespace Sys2Proof.Laws

open Sys2Proof.Machine Sys2Proof.Safety

/-! ## The sequencer -/

/-- `BEGIN` is admitted in every state (44 R146). -/
theorem not_refuses_beginFrame {s : State} {x : Exn} : ¬ Refuses .beginFrame s x := by
  cases x <;> simp [Refuses, Instr.wellFormed, isPixel, isCfgwr]

/-- No command is refused by a transport error, the one exception that moves the sequencer (60 R183, R185). -/
theorem raise_st_of_refuses {i : Instr} {s : State} {x : Exn} (hx : Refuses i s x) : (raise x s).st = s.st := by
  cases x with
  | xerr e => exact hx.elim
  | proto => rfl
  | illegal => rfl
  | ovf => rfl
  | flushed => rfl

@[simp] theorem regWrite_st (idx : BitVec 4) (val : Word) (s : State) : (regWrite idx val s).st = s.st := by
  unfold regWrite
  split <;> rfl

@[simp] theorem regWrite_n (idx : BitVec 4) (val : Word) (s : State) : (regWrite idx val s).n = s.n := by
  unfold regWrite
  split <;> rfl

/-- What a command's effect does to the sequencer: nothing, unless it is a frame command that executes. That completes, or
aborts, or stalls where it stands, the count being the one it began with (10 R14, R15). -/
theorem effect_sequencer {i : Instr} {s t : State} (h : Effect i s t) :
    (i ≠ .beginFrame ∧ t.st = s.st ∧ t.n = s.n) ∨
    (Executes i s ∧
      ((∃ u, u.st = s.st ∧ u.n = startCount i s ∧ t.st = (completed i u).st ∧ t.n = (completed i u).n) ∨
        (t.n = startCount i s ∧ (t.st = .aborted ∨ (t.st = s.st ∧ t.waiting = true))))) := by
  cases h with
  | refused x hx => exact .inl ⟨by rintro rfl; exact not_refuses_beginFrame hx, raise_st_of_refuses hx, raise_n x s⟩
  | replied p w hi => exact .inl ⟨by rintro rfl; simp [isCompute] at hi, rfl, rfl⟩
  | wrote idx val hi => exact .inl ⟨by rw [hi]; nofun, regWrite_st idx val s, regWrite_n idx val s⟩
  | done w fb rest bi ec hx =>
    exact .inr ⟨hx, .inl ⟨sent (started i s w fb) (okBeats (presents i s)) rest bi ec, rfl, rfl, rfl, rfl⟩⟩
  | aborted w fb k e p rest bi ec hx => exact .inr ⟨hx, .inr ⟨rfl, .inl rfl⟩⟩
  | silent w fb k p rest bi ec hx => exact .inr ⟨hx, .inr ⟨rfl, .inr ⟨rfl, rfl⟩⟩⟩

/-- A pixel command completes by counting its pixel (44 R142). -/
theorem completed_of_isPixel {i : Instr} (hi : isPixel i = true) (u : State) : completed i u = { u with n := u.n + 1 } := by
  cases i <;> simp [isPixel] at hi <;> rfl

/-- Below its maximum the count does not wrap (44 R147). -/
theorem count_add_one {n : Word} (h : n ≠ 0xFFFFFFFF) : (n + 1).toNat = n.toNat + 1 := by
  have hmax : n.toNat ≠ 0xFFFFFFFF := fun hc => h (BitVec.eq_of_toNat_eq hc)
  have hlt := n.isLt
  rw [BitVec.toNat_add, show (1 : Word).toNat = 1 from rfl]
  omega

/-- Settles O19: `effect_sequencer`, read for each kind of command. -/
theorem sequencerMoves : Obligations.SequencerMoves := by
  intro i s t h
  rcases effect_sequencer (exec_effect h) with ⟨hBegin, hSt, hN⟩ | ⟨hx, hMove⟩
  · exact ⟨fun hi => absurd hi hBegin, fun _ => .inl ⟨hSt, hN⟩, fun _ => ⟨hN, .inl hSt⟩, fun _ _ _ => ⟨hSt, hN⟩⟩
  rcases hx with rfl | ⟨hi, hFraming, hMax⟩ | ⟨rfl, hFraming⟩
  · refine ⟨fun _ => ?_, nofun, nofun, fun hi => absurd rfl hi⟩
    rcases hMove with ⟨u, -, hN, hSt', hN'⟩ | ⟨hN, hAborted | hStalled⟩
    · exact ⟨hN'.trans hN, .inl hSt'⟩
    · exact ⟨hN, .inr (.inl hAborted)⟩
    · exact ⟨hN, .inr (.inr hStalled)⟩
  · have hBegin : i ≠ .beginFrame := by rintro rfl; cases hi
    have hEnd : i ≠ .endFrame := by rintro rfl; cases hi
    refine ⟨fun h => absurd h hBegin, fun _ => ?_, fun h => absurd h hEnd, fun _ hp => by simp [hi] at hp⟩
    rw [startCount, if_neg hBegin] at hMove
    rcases hMove with ⟨u, hSt, hN, hSt', hN'⟩ | ⟨hN, hAborted | ⟨hSt, -⟩⟩
    · rw [completed_of_isPixel hi] at hSt' hN'
      exact .inr (.inr ⟨hFraming, by rw [hSt', hSt, hFraming], by rw [hN', hN, count_add_one hMax]⟩)
    · exact .inr (.inl ⟨hAborted, hN⟩)
    · exact .inl ⟨hSt, hN⟩
  · refine ⟨nofun, nofun, fun _ => ?_, fun _ _ hi => absurd rfl hi⟩
    rcases hMove with ⟨u, -, hN, hSt', hN'⟩ | ⟨hN, hAborted | ⟨hSt, -⟩⟩
    · exact ⟨hN'.trans hN, .inr ⟨hFraming, .inl hSt'⟩⟩
    · exact ⟨hN, .inr ⟨hFraming, .inr hAborted⟩⟩
    · exact ⟨hN, .inl hSt⟩

/-! ## The sticky flags -/

/-- The flags of `t` are those of `s`, with the one that matches the response code `c` set (10 R16). -/
def FlagsFollow (s t : State) (c : RespCode) : Prop :=
  t.xerr = (s.xerr || c == .xerr) ∧ t.proto = (s.proto || c == .proto) ∧
    t.ill = (s.ill || c == .illegal) ∧ t.ovf = (s.ovf || c == .ovf)

/-- No flag matches `OK`. -/
theorem flagsFollow_ok_iff {s t : State} :
    FlagsFollow s t .ok ↔ t.xerr = s.xerr ∧ t.proto = s.proto ∧ t.ill = s.ill ∧ t.ovf = s.ovf := by
  show _ = (_ || false) ∧ _ = (_ || false) ∧ _ = (_ || false) ∧ _ = (_ || false) ↔ _
  simp only [Bool.or_false]

/-- What is set stays set. -/
theorem FlagsFollow.mono {s t : State} {c : RespCode} (h : FlagsFollow s t c) :
    (s.xerr = true → t.xerr = true) ∧ (s.proto = true → t.proto = true) ∧ (s.ill = true → t.ill = true) ∧
      (s.ovf = true → t.ovf = true) := by
  obtain ⟨hXerr, hProto, hIll, hOvf⟩ := h
  simp +contextual [hXerr, hProto, hIll, hOvf]

/-- An exception sets the flag of the response it ends the command with (60 R183, R185). -/
theorem raise_flags (x : Exn) (s : State) :
    ∃ r, (raise x s).responses = s.responses ++ [r] ∧ FlagsFollow s (raise x s) r.code := by
  cases x with
  | xerr e => exact ⟨⟨.xerr, errBits e⟩, rfl, by simp [FlagsFollow, raise_xerr]⟩
  | proto => exact ⟨⟨.proto, 0⟩, rfl, by simp [FlagsFollow, raise_proto]⟩
  | illegal => exact ⟨⟨.illegal, 0⟩, rfl, by simp [FlagsFollow, raise_illegal]⟩
  | ovf => exact ⟨⟨.ovf, 0⟩, rfl, by simp [FlagsFollow, raise_ovf]⟩
  | flushed => exact ⟨⟨.flushed, 0⟩, rfl, by simp [FlagsFollow, raise_flushed]⟩

theorem regWrite_flags (idx : BitVec 4) (val : Word) (s : State) : FlagsFollow s (regWrite idx val s) .ok := by
  rw [flagsFollow_ok_iff]
  unfold regWrite
  split <;> exact ⟨rfl, rfl, rfl, rfl⟩

theorem regWrite_responses (idx : BitVec 4) (val : Word) (s : State) :
    (regWrite idx val s).responses = s.responses := by
  unfold regWrite
  split <;> rfl

/-- Every effect of a command sets the flag of its response, or, where it gives none, no flag (10 R16, 60 R181). -/
theorem effect_flags {i : Instr} {s t : State} (h : Effect i s t) :
    (∃ r, t.responses = s.responses ++ [r] ∧ FlagsFollow s t r.code) ∨
      (t.responses = s.responses ∧ FlagsFollow s t .ok) := by
  cases h with
  | refused x => exact .inl (raise_flags x s)
  | replied p w => exact .inl ⟨⟨.ok, p⟩, rfl, flagsFollow_ok_iff.mpr ⟨rfl, rfl, rfl, rfl⟩⟩
  | wrote idx val =>
    exact .inl ⟨⟨.ok, 0⟩, by rw [respond_responses, regWrite_responses], regWrite_flags idx val s⟩
  | done w fb rest bi ec => exact .inl ⟨⟨.ok, 0⟩, by simp, by simp [flagsFollow_ok_iff]⟩
  | aborted w fb k e p rest bi ec => exact .inl (raise_flags (.xerr e) _)
  | silent w fb k p rest bi ec => exact .inr ⟨rfl, flagsFollow_ok_iff.mpr ⟨rfl, rfl, rfl, rfl⟩⟩

/-- Settles O22: the response `effect_flags` names is the one that was added. -/
theorem flagsSetByMatchingResponse : Obligations.FlagsSetByMatchingResponse := by
  intro i s t r h hr
  rcases effect_flags (exec_effect h) with ⟨r', hr', hFlags⟩ | ⟨hNone, -⟩
  · obtain rfl : r = r' := by simpa [hr'] using hr.symm
    exact hFlags
  · simp [hNone] at hr

/-- Settles O21: a step without reset is idle, an exception, or an effect of a command, and none of these clears a flag. -/
theorem flagsClearedOnlyByReset : Obligations.FlagsClearedOnlyByReset := by
  intro s t h hReset
  rcases step_cases h with ⟨-, rfl⟩ | ⟨rest, hHost, -⟩ | ⟨c, rest, e, -, -, rfl⟩ | ⟨c, rest, i, -, -, -, he⟩
  · exact ⟨id, id, id, id⟩
  · exact absurd (congrArg List.head? hHost) hReset
  · obtain ⟨r, -, hFlags⟩ := raise_flags .illegal { s with host := rest }
    exact hFlags.mono
  · rcases effect_flags (exec_effect he) with ⟨r, -, hFlags⟩ | ⟨-, hFlags⟩
    · exact hFlags.mono
    · exact hFlags.mono

end Sys2Proof.Laws
end

