-- ==== Sys2Proof/Proofs/NonInterference.lean ====
section
/-! What a command does not read (spec 10 R11, R12, R16, R27): the working registers with the hidden state, and the sticky
flags. Each is a projection `f` of the state; every operation a command is made of is shown to be blind to what `f` hides. -/

namespace Sys2Proof.Laws

open Sys2Proof.Machine Sys2Proof.Safety

/-! ## Blindness -/

/-- `g` is blind to what `f` hides: states that look alike through `f` give results that look alike through `see`. A reader
of the state is seen whole (`id`), an update of it through `f`. -/
def Blind {α β : Type} (f : State → State) (see : α → β) (g : State → α) : Prop :=
  ∀ s s', f s = f s' → see (g s) = see (g s')

/-- Where a run of beats leaves the command, with the state seen through `f`. -/
def flowThrough (f : State → State) : Flow → Flow
  | .go s => .go (f s)
  | .halt s => .halt (f s)

/-- The two projections: `f` hides the working registers with the hidden state, or the sticky flags. -/
def Hides (f : State → State) : Prop := f = hideWorking ∨ f = hideFlags

theorem hideWorking_ne_hideFlags : hideWorking ≠ hideFlags := fun h =>
  absurd (congrFun h (setXerr State.reset)) (by decide)

section
variable {α β : Type} {f : State → State} {see : α → β}

/-- It is enough to compare a state with its own projection. -/
theorem blind_of_eq {g : State → α} (h : ∀ s, see (g (f s)) = see (g s)) : Blind f see g := fun s s' e =>
  calc see (g s) = see (g (f s)) := (h s).symm
    _ = see (g (f s')) := by rw [e]
    _ = see (g s') := h s'

/-- After a blind update. -/
theorem Blind.comp {g : State → α} {u : State → State} (hg : Blind f see g) (hu : Blind f f u) :
    Blind f see (fun s => g (u s)) := fun s s' e => hg _ _ (hu s s' e)

/-- With an operand that is read blindly. -/
theorem Blind.read {γ : Type} {r : State → γ} {k : γ → State → α} (hr : Blind f id r) (hk : ∀ c, Blind f see (k c)) :
    Blind f see (fun s => k (r s) s) := fun s s' e => by
  have hc : r s = r s' := hr s s' e
  show see (k (r s) s) = see (k (r s') s')
  rw [hc]
  exact hk _ s s' e

end

section
variable {f : State → State}

/-- One run of beats after another. -/
theorem Blind.andThen {g k : State → Flow} (hg : Blind f (flowThrough f) g) (hk : Blind f (flowThrough f) k) :
    Blind f (flowThrough f) (fun s => (g s).andThen k) := fun s s' e => by
  have h := hg s s' e
  show flowThrough f ((g s).andThen k) = flowThrough f ((g s').andThen k)
  cases hs : g s <;> cases hs' : g s' <;> simp only [hs, hs', flowThrough, Flow.go.injEq, Flow.halt.injEq, reduceCtorEq] at h
  · exact hk _ _ h
  · exact congrArg Flow.halt h

/-- A command's last lines after a run of beats. -/
theorem Blind.finish {g : State → Flow} {k : State → State} (hg : Blind f (flowThrough f) g) (hk : Blind f f k) :
    Blind f f (fun s => (g s).finish k) := fun s s' e => by
  have h := hg s s' e
  show f ((g s).finish k) = f ((g s').finish k)
  cases hs : g s <;> cases hs' : g s' <;> simp only [hs, hs', flowThrough, Flow.go.injEq, Flow.halt.injEq, reduceCtorEq] at h
  · exact hk _ _ h
  · exact h

/-- A next state is seen through `f`. -/
theorem Blind.next {u : State → State} (hu : Blind f f u) : Blind f (through f) (fun s => .next (u s)) := fun s s' e =>
  congrArg Host.Outcome.next (hu s s' e)

theorem blind_go : Blind f (flowThrough f) .go := fun _ _ e => congrArg Flow.go e

/-! ## The encoder -/

theorem encStep5_setOut (w : Work) (d : DeviceColor) : encStep5 { w with out := d } = { encStep5 w with out := d } := by
  by_cases h : w.br = 255 <;> simp only [encStep5, h, if_true, if_false]

theorem encStep6_setOut (w : Work) (d : DeviceColor) : encStep6 { w with out := d } = { encStep6 w with out := d } := by
  by_cases h : 1 < w.acc <;> simp only [encStep6, h, if_true, if_false]

/-- Steps 3 and 4 set every working register, and step 7 the latch (43 R121): where all are run, what the registers held is
gone. -/
theorem encSteps_eq (r g b : Half) (brt : Byte) (w w' : Work) :
    encStep7 (encStep6 (encStep5 (encStep4 r g b (encStep3 brt w)))) =
      encStep7 (encStep6 (encStep5 (encStep4 r g b (encStep3 brt w')))) := by
  have hRegs : encStep4 r g b (encStep3 brt w) = { encStep4 r g b (encStep3 brt w') with out := w.out } := rfl
  rw [hRegs, encStep5_setOut, encStep6_setOut]
  rfl

/-- The latch is the operands' alone. -/
theorem encLin16_out_eq (r g b : Half) (brt : Byte) (w w' : Work) :
    (encLin16 r g b brt w).out = (encLin16 r g b brt w').out := by
  unfold encLin16
  split
  · rfl
  · split
    · rfl
    · rw [encSteps_eq]

theorem encPerc8_out_eq (r g b brt : Byte) (c : Option Correction) (w w' : Work) :
    (encPerc8 r g b brt c w).out = (encPerc8 r g b brt c w').out := by
  unfold encPerc8
  split
  · rfl
  · split
    · exact encLin16_out_eq ..
    · exact encLin16_out_eq ..

/-! ## The operations every command is made of -/

theorem ifAdmitted_of_none {g : CmdGroup} {s : State} {body : State → Host.Outcome State Fault Refusal}
    (h : admission g s.st = none) : ifAdmitted g s body = body s := by
  rw [ifAdmitted, h]

theorem ifAdmitted_of_some {g : CmdGroup} {s : State} {body : State → Host.Outcome State Fault Refusal} {x : Exn}
    (h : admission g s.st = some x) : ifAdmitted g s body = .next (raise x s) := by
  rw [ifAdmitted, h]

theorem emitPixel_of_none {brt red grn blu : Byte} {s : State} (h : pixelFrame s.cfg0 brt red grn blu = none) :
    emitPixel brt red grn blu s = .fault .reservedChannelOrder := by
  rw [emitPixel, h]

theorem emitPixel_of_some {brt red grn blu : Byte} {s : State} {fr : FrameBuf}
    (h : pixelFrame s.cfg0 brt red grn blu = some fr) :
    emitPixel brt red grn blu s =
      .next ((txSeg fr.bytes { s with fb := fr }).finish fun t => respond .ok 0 { t with n := t.n + 1 }) := by
  rw [emitPixel, h]

variable (hf : Hides f)
include hf

theorem blind_raise (x : Exn) : Blind f f (raise x) :=
  blind_of_eq fun s => by rcases hf with rfl | rfl <;> cases x <;> rfl

theorem blind_respond (c : RespCode) (p : Word) : Blind f f (respond c p) :=
  blind_of_eq fun s => by rcases hf with rfl | rfl <;> rfl

theorem blind_regWrite (idx : BitVec 4) (val : Word) : Blind f f (regWrite idx val) :=
  blind_of_eq fun s => by unfold regWrite; rcases hf with rfl | rfl <;> split <;> rfl

theorem blind_st : Blind f id State.st := blind_of_eq fun s => by rcases hf with rfl | rfl <;> rfl

theorem blind_n : Blind f id State.n := blind_of_eq fun s => by rcases hf with rfl | rfl <;> rfl

theorem blind_cfg0 : Blind f id State.cfg0 := blind_of_eq fun s => by rcases hf with rfl | rfl <;> rfl

theorem blind_endFrame : Blind f id endFrame := blind_of_eq fun s => by rcases hf with rfl | rfl <;> rfl

theorem blind_registerCorrection : Blind f id registerCorrection :=
  blind_of_eq fun s => by rcases hf with rfl | rfl <;> rfl

/-- A beat: neither what is presented nor what is made of the answer is read from what `f` hides. -/
theorem blind_txByte (b : Byte) (last : Bool) : Blind f (flowThrough f) (txByte b last) :=
  blind_of_eq fun s => by
    have ha : nextAnswer (f s) = nextAnswer s := by rcases hf with rfl | rfl <;> rfl
    unfold txByte
    rw [ha]
    cases nextAnswer s <;> rcases hf with rfl | rfl <;> rfl

theorem blind_txBytes : ∀ bs : List Byte, Blind f (flowThrough f) (txBytes bs)
  | [] => blind_go
  | b :: bs =>
    (blind_txByte hf b bs.isEmpty).andThen ((blind_txBytes bs).comp (u := fun t => { t with bi := t.bi + 1 })
      (blind_of_eq fun s => by rcases hf with rfl | rfl <;> rfl))

theorem blind_txSeg (bs : List Byte) : Blind f (flowThrough f) (txSeg bs) :=
  (blind_txBytes hf bs).comp (u := fun s => { s with bi := 0 })
    (blind_of_eq fun s => by rcases hf with rfl | rfl <;> rfl)

theorem blind_endLoop (fill : Byte) : ∀ k : Nat, Blind f (flowThrough f) (endLoop fill k)
  | 0 => blind_go
  | k + 1 =>
    (blind_txByte hf fill (k == 0)).andThen ((blind_endLoop fill k).comp
      (u := fun t => { t with bi := t.bi + 1, ec := BitVec.ofNat 32 k })
      (blind_of_eq fun s => by rcases hf with rfl | rfl <;> rfl))

theorem blind_txEnd (cnt : Word) (fill : Byte) : Blind f (flowThrough f) (txEnd cnt fill) :=
  (blind_endLoop hf fill cnt.toNat).comp (u := fun s => { s with bi := 0, ec := cnt })
    (blind_of_eq fun s => by rcases hf with rfl | rfl <;> rfl)

theorem blind_txReset : Blind f (flowThrough f) txReset :=
  Blind.read (k := fun c s => if resetEn c then txSeg zeroFrame s else .go s) (blind_cfg0 hf) fun c => by
    cases resetEn c
    · exact blind_go
    · exact blind_txSeg hf zeroFrame

theorem blind_ifAdmitted (g : CmdGroup) {body : State → Host.Outcome State Fault Refusal}
    (hb : Blind f (through f) body) : Blind f (through f) (fun s => ifAdmitted g s body) := fun s s' e => by
  have hst : s.st = s'.st := blind_st hf s s' e
  show through f (ifAdmitted g s body) = through f (ifAdmitted g s' body)
  cases hx : admission g s'.st with
  | none =>
    rw [ifAdmitted_of_none hx, ifAdmitted_of_none (hst ▸ hx)]
    exact hb s s' e
  | some x =>
    rw [ifAdmitted_of_some hx, ifAdmitted_of_some (hst ▸ hx)]
    exact (blind_raise hf x).next s s' e

theorem blind_ifCountable {body : State → Host.Outcome State Fault Refusal} (hb : Blind f (through f) body) :
    Blind f (through f) (fun s => ifCountable s body) :=
  Blind.read (k := fun n s => if n = 0xFFFFFFFF then .next (raise .ovf s) else body s) (blind_n hf) fun n => by
    split
    · exact (blind_raise hf .ovf).next
    · exact hb

theorem blind_answerWith (p : Word) : Blind f (through f) (answerWith p) :=
  blind_ifAdmitted hf .otherCmd (blind_respond hf .ok p).next

/-- A word-level check of operands alone (30 R74). -/
theorem blind_ifLegal (legal : Bool) {body : State → Host.Outcome State Fault Refusal} (hb : Blind f (through f) body) :
    Blind f (through f) (fun s => if legal then body s else .next (raise .illegal s)) := by
  cases legal
  · exact (blind_raise hf .illegal).next
  · exact hb

/-! ## Pixels -/

theorem blind_emitPixel (brt red grn blu : Byte) : Blind f (through f) (emitPixel brt red grn blu) := fun s s' e => by
  have hc : s.cfg0 = s'.cfg0 := blind_cfg0 hf s s' e
  cases hp : pixelFrame s'.cfg0 brt red grn blu with
  | none => rw [emitPixel_of_none hp, emitPixel_of_none (hc ▸ hp)]
  | some fr =>
    rw [emitPixel_of_some hp, emitPixel_of_some (hc ▸ hp)]
    have hFrame : Blind f (flowThrough f) (fun s => txSeg fr.bytes { s with fb := fr }) :=
      (blind_txSeg hf fr.bytes).comp (blind_of_eq fun s => by rcases hf with rfl | rfl <;> rfl)
    have hCount : Blind f f (fun t => respond .ok 0 { t with n := t.n + 1 }) :=
      (blind_respond hf .ok 0).comp (blind_of_eq fun s => by rcases hf with rfl | rfl <;> rfl)
    exact (hFrame.finish hCount).next s s' e

/-! ## A result in the latch

`wk` says what a command puts into its working registers. It may read what they held, but no sticky flag, and its latch may
not depend on what they held. -/

variable {wk : State → Work} (hOut : Blind f id fun s => (wk s).out) (hFlags : ∀ s, wk (hideFlags s) = wk s)

include hFlags in
theorem blind_setWork : Blind f f (fun s => { s with w := wk s }) :=
  blind_of_eq fun s => by
    rcases hf with rfl | rfl
    · rfl
    · rw [hFlags s]
      rfl

include hOut hFlags

theorem blind_emitLatch : Blind f (through f) (fun s => emitLatch { s with w := wk s }) :=
  Blind.read (k := fun d s => emitPixel (d.brt.setWidth 8) d.red d.grn d.blu { s with w := wk s }) hOut fun _ =>
    (blind_emitPixel hf _ _ _ _).comp (blind_setWork hf hFlags)

theorem blind_answerLatch : Blind f (through f) (fun s => answerLatch (wk s) s) :=
  Blind.read (k := fun d s => answerWith d.pack { s with w := wk s }) hOut fun _ =>
    (blind_answerWith hf _).comp (blind_setWork hf hFlags)

end

/-! ## Every command -/

section
variable {f : State → State} (hf : Hides f)
include hf

theorem blind_pixel {body : State → Host.Outcome State Fault Refusal} (hb : Blind f (through f) body) :
    Blind f (through f) (fun s => ifAdmitted .pixelCmd s fun s => ifCountable s body) :=
  blind_ifAdmitted hf .pixelCmd (blind_ifCountable hf hb)

theorem blind_execBegin : Blind f (through f) execBegin := by
  have hClear : Blind f f (fun s => { s with n := 0 }) := blind_of_eq fun s => by rcases hf with rfl | rfl <;> rfl
  have hEnter : Blind f f enterFraming := blind_of_eq fun s => by rcases hf with rfl | rfl <;> rfl
  have hFrame := ((blind_txSeg hf zeroFrame).comp hClear).finish ((blind_respond hf .ok 0).comp hEnter)
  exact blind_ifAdmitted hf .beginCmd hFrame.next

theorem blind_execEnd : Blind f (through f) execEnd := by
  have hFrame : Blind f (flowThrough f) (fun t => txEnd (endFrame t).1 (endFrame t).2 t) :=
    Blind.read (k := fun p t => txEnd p.1 p.2 t) (blind_endFrame hf) fun p => blind_txEnd hf p.1 p.2
  have hEnded : Blind f f (fun t => { t with st := .ended }) := blind_of_eq fun s => by rcases hf with rfl | rfl <;> rfl
  exact blind_ifAdmitted hf .endCmd
    (((blind_txReset hf).andThen hFrame).finish ((blind_respond hf .ok 0).comp hEnded)).next

/-- Only `STATUS` shows a flag (10 R16, R22). -/
theorem blind_regRead {idx : BitVec 4} (hi : f = hideFlags → idx ≠ 4) : Blind f id (regRead idx) :=
  blind_of_eq fun s => by
    rcases hf with rfl | rfl
    · rfl
    · have hStatus : idx.toNat ≠ 4 := fun hc => hi rfl (BitVec.eq_of_toNat_eq hc)
      unfold regRead
      split
      case h_5 h => exact absurd h hStatus
      all_goals rfl

theorem blind_execCfgrd {idx : BitVec 4} (hi : f = hideFlags → idx ≠ 4) : Blind f (through f) (execCfgrd idx) :=
  fun s s' e => by
    have hr : regRead idx s = regRead idx s' := blind_regRead hf hi s s' e
    unfold execCfgrd
    rw [hr]
    cases regRead idx s' with
    | none => exact (blind_raise hf .illegal).next s s' e
    | some v => exact blind_answerWith hf v s s' e

/-- Every command is blind to what `f` hides, but `CFGRD` of `STATUS` to the flags. -/
theorem blind_exec {i : Instr} (hi : f = hideFlags → i ≠ .cfgrd 4) : Blind f (through f) (exec i) := by
  cases i with
  | beginFrame => exact blind_execBegin hf
  | pixdev brt red grn blu => exact blind_pixel hf (blind_emitPixel hf brt red grn blu)
  | pixlin16 brt r g b =>
    exact blind_pixel hf (blind_emitLatch hf (wk := fun s => encLin16 r g b brt s.w)
      (blind_of_eq fun _ => encLin16_out_eq ..) fun _ => rfl)
  | pixperc8 brt r g b =>
    have hOut : Blind f id (fun s => (encPerc8 r g b brt (registerCorrection s) s.w).out) :=
      Blind.read (k := fun c s => (encPerc8 r g b brt c s.w).out) (blind_registerCorrection hf) fun _ =>
        blind_of_eq fun _ => encPerc8_out_eq ..
    exact blind_pixel hf (blind_emitLatch hf hOut fun _ => rfl)
  | endFrame => exact blind_execEnd hf
  | cfgwr idx val =>
    exact blind_ifLegal hf _ (blind_ifAdmitted hf .cfgwrCmd
      ((blind_respond hf .ok 0).comp (blind_regWrite hf idx val)).next)
  | cfgrd idx => exact blind_execCfgrd hf fun h hc => hi h (by rw [hc])
  | gamma idx => exact blind_answerWith hf _
  | scale val sc => exact blind_answerWith hf _
  | map val => exact blind_answerWith hf _
  | bshift8 src dst max => exact blind_answerWith hf _
  | bshift16 src dst max steps => exact blind_ifLegal hf _ (blind_answerWith hf _)
  | enclin16 brt r g b =>
    exact blind_answerLatch hf (wk := fun s => encLin16 r g b brt s.w)
      (blind_of_eq fun _ => encLin16_out_eq ..) fun _ => rfl
  | encperc8 brt r g b cp cr cg cb =>
    exact blind_ifLegal hf _ (blind_answerLatch hf (wk := fun s => encPerc8 r g b brt (wordCorrection cp cr cg cb) s.w)
      (blind_of_eq fun _ => encPerc8_out_eq ..) fun _ => rfl)

end

/-- Settles O24: through `hideWorking` the two states are one. -/
theorem workingRegistersCarryNothing : Obligations.WorkingRegistersCarryNothing :=
  fun _ _ _ _ _ _ => blind_exec (.inl rfl) (fun h => absurd h hideWorking_ne_hideFlags) _ _ rfl

/-- Settles O25: through `hideFlags` the two states are one. -/
theorem flagsReadByNothing : Obligations.FlagsReadByNothing :=
  fun _ _ _ _ _ _ hi => blind_exec (.inr rfl) (fun _ => hi) _ _ rfl

end Sys2Proof.Laws
end

