-- ==== Sys2Proof/Proofs/RegisterFile.lean ====
section
/-! What the registers read after reset (spec 10 R29), the indices a register command refuses (10 R25), and the bits of
`STATUS` (10 R22). -/

namespace Sys2Proof.Laws

open Sys2Proof Sys2Proof.Machine

/-- Settles O10: each register's reset value, `ERR_CODE`'s by `errBits_zero`. -/
theorem registersReadAfterReset : Obligations.RegistersReadAfterReset :=
  ⟨rfl, rfl, rfl, rfl, rfl, congrArg some errBits_zero, rfl, rfl, rfl⟩

/-! ## Refused indices (30 R74 (e), (f)) -/

theorem exec_cfgrd_malformed {idx : BitVec 4} (h : (Instr.cfgrd idx).wellFormed = false) (s : State) :
    exec (.cfgrd idx) s = .next (raise .illegal s) := by
  simp only [exec, execCfgrd, (regRead_eq_none_iff idx s).mpr h]

theorem exec_cfgwr_malformed {idx : BitVec 4} {val : Word} (h : (Instr.cfgwr idx val).wellFormed = false) (s : State) :
    exec (.cfgwr idx val) s = .next (raise .illegal s) := by
  simp [exec, execCfgwr, cfgwrLegal_eq, h]

/-- An index that names no register that can be written (10 R17, R25). -/
theorem cfgwr_malformed_of_index {idx : BitVec 4} (h : 4 ≤ idx.toNat) (val : Word) :
    (Instr.cfgwr idx val).wellFormed = false := by
  rw [Bool.eq_false_iff, ne_eq, cfgwr_wellFormed_iff]
  rintro (⟨rfl, -⟩ | rfl | rfl | ⟨rfl, -⟩) <;> exact absurd h (by decide)

theorem cfgrd_malformed_of_index {idx : BitVec 4} (h : 7 ≤ idx.toNat) : (Instr.cfgrd idx).wellFormed = false :=
  decide_eq_false (Nat.not_lt.mpr h)

/-- Settles O31: both commands are malformed there. -/
theorem reservedIndicesRefused : Obligations.ReservedIndicesRefused := fun _ val s h =>
  ⟨exec_cfgrd_malformed (cfgrd_malformed_of_index h) s,
    exec_cfgwr_malformed (cfgwr_malformed_of_index (Nat.le_trans (by decide) h) val) s⟩

/-! ## `STATUS` -/

/-- A word put in front of another stands above its bits. -/
theorem toNat_append_add {m n : Nat} (x : BitVec m) (y : BitVec n) : (x ++ y).toNat = x.toNat * 2 ^ n + y.toNat := by
  rw [BitVec.toNat_append, ← Nat.shiftLeft_add_eq_or_of_lt y.isLt, Nat.shiftLeft_eq]

theorem statusWord_toNat (s : State) :
    (statusWord s).toNat = s.st.code.toNat + 4 * s.xerr.toNat + 8 * s.proto.toNat + 16 * s.ill.toNat + 32 * s.ovf.toNat := by
  simp only [statusWord, toNat_append_add, BitVec.toNat_ofBool, BitVec.toNat_ofNat]
  omega

/-- Settles O34: the bits by `statusWord_toNat`, and a write of index 4 is malformed. -/
theorem statusBits : Obligations.StatusBits := by
  refine ⟨fun s => ⟨?_, rfl, fun val => exec_cfgwr_malformed (cfgwr_malformed_of_index (by decide) val) s⟩, rfl⟩
  rw [statusWord_toNat]
  cases s.st <;> rfl

end Sys2Proof.Laws
end

