-- ==== Sys2Proof/Proofs/EncoderClosedForm.lean ====
section
/-! The pixel encoder over the natural numbers: what `encLin16` and `encPerc8` leave in the latch is `Safety.encLinN` and
`Safety.encPercN` of the same operands (spec 43 R121 to R124). -/

namespace Sys2Proof.Laws

open Sys2Proof Sys2Proof.Machine Sys2Proof.Safety

/-- A device pixel as natural numbers. -/
def pixelN (d : DeviceColor) : PixelN := ⟨d.brt.toNat, d.red.toNat, d.grn.toNat, d.blu.toNat⟩

theorem byte_eq_zero_iff (b : Byte) : b = 0 ↔ b.toNat = 0 := BitVec.toNat_inj.symm

theorem half_eq_zero_iff (x : Half) : x = 0 ↔ x.toNat = 0 := BitVec.toNat_inj.symm

/-! ## The scalers -/

/-- A correction by 255 is the identity, as it is of `scale16by8` (41 R101, 43 R122). -/
theorem correctChannel_toNat (x : Half) (c : Byte) : (correctChannel x c).toNat = scaleN x.toNat c.toNat := by
  unfold correctChannel
  split
  · subst c
    simp [scaleN]
  · exact scale16by8_toNat x c

/-- The closed form makes no case of 255, as scaling by it changes nothing (41 R101). -/
theorem channelN_eq (brt m x : Nat) :
    channelN brt m x = mapN (scaleN (x * 2 ^ shiftTwo brt m) (brt * 2 ^ shiftOne brt)) := by
  unfold channelN
  dsimp only
  split
  · rename_i h
    simp [h, scaleN]
  · rfl

/-! ## Steps 3 to 7 of R121 -/

/-- A loop that goes on exactly while `go` holds stops at the first count where it fails. -/
theorem eq_of_first_stop {go : Nat → Prop} {k n : Nat} (hk : ∀ j < k, go j) (hk' : ¬ go k) (hn : ∀ j < n, go j)
    (hn' : ¬ go n) : k = n := by
  rcases Nat.lt_trichotomy k n with h | h | h
  · exact absurd (hn k h) hk'
  · exact h
  · exact absurd (hk n h) hn'

/-- The shifts of step 3: as many as leave bit 7 of the brightness clear, at most four (43 R123). -/
theorem lt_shiftOne_iff {j brt : Nat} : j < shiftOne brt ↔ j < 4 ∧ brt * 2 ^ j < 2 ^ 7 := by
  unfold shiftOne
  by_cases hj : j < 4
  · interval_cases j <;> split_ifs <;> omega
  · split_ifs <;> omega

/-- The shifts the maximum channel leaves step 4: as many as fit 16 bits, at most four (43 R124). -/
theorem lt_headroom_iff {j m : Nat} : j < headroom m ↔ j < 4 ∧ m * 2 ^ (j * 2 + 2) < 2 ^ 16 := by
  unfold headroom
  by_cases hj : j < 4
  · interval_cases j <;> split_ifs <;> omega
  · split_ifs <;> omega

theorem shiftOne_le (brt : Nat) : shiftOne brt ≤ 4 :=
  Nat.le_of_not_lt fun h => absurd (lt_shiftOne_iff.mp h).1 (Nat.lt_irrefl 4)

/-- The accumulator, a power of two throughout, is even until its bit has reached bit 0. -/
theorem sixteen_div_even_iff {t : Nat} (ht : t ≤ 4) : 16 / 2 ^ t % 2 = 0 ↔ t < 4 := by
  interval_cases t <;> decide

/-- The conditions of step 4's loop after `j` shifts, of an accumulator that step 3 has shifted `a` times (43 R121, R124). -/
def StepFourGoes (a m j : Nat) : Prop := j < 4 ∧ 16 / 2 ^ (a + j) % 2 = 0 ∧ m * 2 ^ (j * 2 + 2) < 2 ^ 16

theorem stepFourGoes_of_lt {a m j : Nat} (hj : j < min (4 - a) (headroom m)) : StepFourGoes a m j := by
  obtain ⟨hj4, hFits⟩ := lt_headroom_iff.mp (lt_of_lt_of_le hj (Nat.min_le_right _ _))
  exact ⟨hj4, (sixteen_div_even_iff (by omega)).mpr (by omega), hFits⟩

theorem not_stepFourGoes_min {a m : Nat} (ha : a ≤ 4) : ¬ StepFourGoes a m (min (4 - a) (headroom m)) := by
  rintro ⟨hn, hEven, hFits⟩
  have hOne := (sixteen_div_even_iff (by omega)).mp hEven
  have hTwo := lt_headroom_iff.mpr ⟨hn, hFits⟩
  omega

/-- Step 3: the accumulator and the brightness register (43 R123). -/
theorem encStep3_toNat {brt : Byte} (hb : brt ≠ 0) (w : Work) :
    (encStep3 brt w).acc.toNat = 16 / 2 ^ shiftOne brt.toNat ∧
      (encStep3 brt w).br.toNat = brt.toNat * 2 ^ shiftOne brt.toNat := by
  obtain ⟨k, hk, -, hSrc, hDst, -, hGo, hStop⟩ := bshift8_spec 16 brt 4
  rw [ne_eq, byte_eq_zero_iff] at hb
  have hk : k ≤ 4 := hk
  suffices hShift : k = shiftOne brt.toNat by
    rw [← hShift]
    exact ⟨hSrc, hDst⟩
  refine Nat.le_antisymm (le_of_forall_lt fun j hj => ?_) (Nat.le_of_not_lt fun hlt => ?_)
  · exact lt_shiftOne_iff.mpr ⟨by omega, (hGo j hj).2.2.2⟩
  · obtain ⟨hk4, hFits⟩ := lt_shiftOne_iff.mp hlt
    rcases hStop with h | h | h | h | h
    · cases h
    · exact hb h
    · exact absurd h hk4.ne
    · exact absurd h (by interval_cases k <;> decide)
    · omega

/-- Step 4 on an accumulator that step 3 has shifted `a` times (43 R124): the accumulator, the shift count, and the room it
leaves the maximum channel. -/
theorem bshift16_acc {acc : Byte} {m : Half} {a : Nat} (ha : a ≤ 4) (hacc : acc.toNat = 16 / 2 ^ a) (hm : m ≠ 0) :
    (bshift16 acc m 4 2).src.toNat = 16 / 2 ^ (a + min (4 - a) (headroom m.toNat)) ∧
      (bshift16 acc m 4 2).cnt.toNat = min (4 - a) (headroom m.toNat) ∧
      m.toNat * 2 ^ min (4 - a) (headroom m.toNat) < 2 ^ 16 := by
  obtain ⟨k, hk, -, hSrc, hDst, hCnt, hGo, hStop⟩ := bshift16_spec acc m 4 2 (.inr rfl)
  rw [ne_eq, half_eq_zero_iff] at hm
  have hk : k ≤ 4 := hk
  simp only [hacc, Nat.div_div_eq_div_mul, ← Nat.pow_add, show (2 : Byte).toNat = 2 from rfl,
    show (4 : Byte).toNat = 4 from rfl] at hGo hStop hSrc hDst
  have hStops : ¬ StepFourGoes a m.toNat k := by
    rintro ⟨hk4, hEven, hFits⟩
    have hAcc : 16 / 2 ^ a ≠ 0 := by interval_cases a <;> decide
    omega
  have hCount : k = min (4 - a) (headroom m.toNat) :=
    eq_of_first_stop (fun j hj => ⟨by omega, (hGo j hj).2.2⟩) hStops (fun _ => stepFourGoes_of_lt) (not_stepFourGoes_min ha)
  rw [← hCount]
  refine ⟨?_, hCnt, ?_⟩
  · rw [Nat.pow_add, ← Nat.div_div_eq_div_mul, ← hSrc, Nat.mul_div_cancel _ (Nat.two_pow_pos k)]
  · calc m.toNat * 2 ^ k ≤ m.toNat * 2 ^ (k * 2) := Nat.mul_le_mul_left _ (Nat.pow_le_pow_right (by decide) (by omega))
      _ < 2 ^ 16 := hDst ▸ (bshift16 acc m 4 2).dst.isLt

/-- A channel's shift in step 4 loses no bit: the maximum channel has room for it (43 R125). -/
theorem shiftLeft_toNat_of_le {x : Half} {m k : Nat} (hx : x.toNat ≤ m) (hm : m * 2 ^ k < 2 ^ 16) :
    (x <<< k).toNat = x.toNat * 2 ^ k := by
  rw [BitVec.toNat_shiftLeft, Nat.shiftLeft_eq]
  exact Nat.mod_eq_of_lt (lt_of_le_of_lt (Nat.mul_le_mul_right _ hx) hm)

/-- Steps 5 and 7 on one channel: the spec's closed form of it (43 R121). -/
theorem map_correctChannel_toNat (x : Half) (c : Byte) :
    (map16to8 (correctChannel x c)).toNat = mapN (scaleN x.toNat c.toNat) := by
  rw [map16to8_toNat, correctChannel_toNat]
  rfl

/-- Step 5 scales each channel by the brightness register as a correction would (43 R121). -/
theorem encStep5_eq (w : Work) :
    encStep5 w = { w with r16 := correctChannel w.r16 w.br, g16 := correctChannel w.g16 w.br,
                          b16 := correctChannel w.b16 w.br } := by
  unfold encStep5 correctChannel
  split <;> rfl

theorem encStep6_eq (w : Work) :
    encStep6 w = { w with acc := if 1 < w.acc then w.acc ||| (w.acc - 1) else w.acc } := by
  unfold encStep6
  split <;> rfl

/-- Step 6 sets every bit below the accumulator's one (43 R121). -/
theorem encStep6_acc {w : Work} {t : Nat} (ht : t ≤ 4) (hacc : w.acc.toNat = 16 / 2 ^ t) :
    encStep6 w = { w with acc := BitVec.ofNat 8 (32 / 2 ^ t - 1) } := by
  have hacc : w.acc = BitVec.ofNat 8 (16 / 2 ^ t) := by rw [← hacc, BitVec.ofNat_toNat, BitVec.setWidth_eq]
  rw [encStep6_eq, hacc]
  interval_cases t <;> rfl

/-! ## The encoder -/

theorem shiftOne_add_shiftTwo_le (brt m : Nat) : shiftOne brt + shiftTwo brt m ≤ 4 := by
  have := shiftOne_le brt
  unfold shiftTwo
  omega

/-- Steps 3 and 4: the accumulator and the three shifted channels (43 R123 to R125). -/
theorem encStep4_toNat {brt : Byte} {r g b : Half} {m : Nat} (hb : brt ≠ 0) (hc : ¬ (r = 0 ∧ g = 0 ∧ b = 0))
    (hm : m = max r.toNat (max g.toNat b.toNat)) (w : Work) :
    (encStep4 r g b (encStep3 brt w)).acc.toNat = 16 / 2 ^ (shiftOne brt.toNat + shiftTwo brt.toNat m) ∧
      (encStep4 r g b (encStep3 brt w)).r16.toNat = r.toNat * 2 ^ shiftTwo brt.toNat m ∧
      (encStep4 r g b (encStep3 brt w)).g16.toNat = g.toNat * 2 ^ shiftTwo brt.toNat m ∧
      (encStep4 r g b (encStep3 brt w)).b16.toNat = b.toNat * 2 ^ shiftTwo brt.toNat m := by
  have hMax : (umax r (umax g b)).toNat = m := by rw [umax_toNat, umax_toNat, hm]
  have hNe : umax r (umax g b) ≠ 0 := by
    rw [ne_eq, half_eq_zero_iff, hMax]
    rw [half_eq_zero_iff, half_eq_zero_iff, half_eq_zero_iff] at hc
    omega
  obtain ⟨hAcc, hCnt, hRoom⟩ := bshift16_acc (shiftOne_le brt.toNat) (encStep3_toNat hb w).1 hNe
  rw [hMax] at hAcc hCnt hRoom
  have hShift : ∀ x : Half, x.toNat ≤ m →
      (x <<< (bshift16 (encStep3 brt w).acc (umax r (umax g b)) 4 2).cnt.toNat).toNat
        = x.toNat * 2 ^ shiftTwo brt.toNat m := fun x hx => by
    rw [hCnt]
    exact shiftLeft_toNat_of_le hx hRoom
  exact ⟨hAcc, hShift r (by omega), hShift g (by omega), hShift b (by omega)⟩

theorem satBrightness_toNat (brt : Byte) : (satBrightness brt).toNat = min brt.toNat 31 := by
  unfold satBrightness
  split <;> rename_i h <;> rw [BitVec.le_def, show (31 : Byte).toNat = 31 from rfl] at h
  · rw [BitVec.toNat_setWidth]
    omega
  · rw [show (31 : BitVec 5).toNat = 31 from rfl]
    omega

/-- THE ENCODER: what it leaves in the latch is the closed form of its operands (43 R121, R123, R124, R128). -/
theorem encLin16_pixelN (r g b : Half) (brt : Byte) (w : Work) :
    pixelN (encLin16 r g b brt w).out = encLinN r.toNat g.toNat b.toNat brt.toNat := by
  unfold encLin16 encLinN
  simp only [← half_eq_zero_iff, ← byte_eq_zero_iff]
  split_ifs with hb hc
  · rfl
  · simp [pixelN, satBrightness_toNat]
  · obtain ⟨hAcc, hRed, hGrn, hBlu⟩ := encStep4_toNat hb hc rfl w
    have hBr : (encStep4 r g b (encStep3 brt w)).br.toNat = brt.toNat * 2 ^ shiftOne brt.toNat :=
      (encStep3_toNat hb w).2
    have ht := shiftOne_add_shiftTwo_le brt.toNat (max r.toNat (max g.toNat b.toNat))
    rw [encStep6_acc ht (by rw [encStep5_eq]; exact hAcc), encStep5_eq]
    simp only [pixelN, encStep7, map_correctChannel_toNat, hRed, hGrn, hBlu, hBr, channelN_eq, PixelN.mk.injEq,
      and_true]
    generalize shiftOne brt.toNat + shiftTwo brt.toNat _ = t at ht
    interval_cases t <;> rfl

/-- The perceptual encoder: the gamma table, the correction if there is one, then the encoder (43 R122). -/
theorem encPerc8_pixelN (r g b brt : Byte) (corr : Option Correction) (w : Work) :
    pixelN (encPerc8 r g b brt corr w).out = encPercN r g b brt.toNat corr := by
  unfold encPerc8
  split_ifs with hb
  · subst hb
    cases corr <;> rfl
  · cases corr with
    | none => exact encLin16_pixelN _ _ _ brt w
    | some c =>
      simp only [encLin16_pixelN, correctChannel_toNat]
      rfl

end Sys2Proof.Laws
end

