-- ==== Sys2Proof/Proofs/PlannedBeats.lean ====
section
/-! The beats a frame command presents are the planned ones (spec 44 R141 to R145, R148): `presents`, as the machine computes
them, against `Safety.planned`, as the spec writes them. A reserved channel order, which no run reaches, presents none. -/

namespace Sys2Proof.Laws

open Sys2Proof Sys2Proof.Machine Sys2Proof.Safety

/-! ## Pixel frames -/

/-- Byte 0 of a pixel frame: the marker stands above the five brightness bits (30 R73). -/
theorem brightnessByte_eq (brt : Byte) : brightnessByte brt = BitVec.ofNat 8 (0xE0 + brt.toNat % 32) := by
  apply BitVec.eq_of_toNat_eq
  have hlt : brt.toNat % 32 < 32 := Nat.mod_lt _ (by decide)
  have hOr : 0xE0 + brt.toNat % 32 = 0xE0 ||| brt.toNat % 32 :=
    Nat.two_pow_add_eq_or_of_lt (i := 5) hlt 7
  have hAnd : (brt &&& 0x1F).toNat = brt.toNat % 32 := Nat.and_two_pow_sub_one_eq_mod brt.toNat 5
  rw [brightnessByte, BitVec.toNat_or, hAnd, BitVec.toNat_ofNat, Nat.mod_eq_of_lt (a := 0xE0 + _) (by omega), hOr]
  rfl

/-- The pixel frame the machine builds is the spec's (30 R71 to R73). -/
theorem pixelFrame_bytes {cfg0 : Word} {brt r g b : Byte} {f : FrameBuf} (h : pixelFrame cfg0 brt r g b = some f) :
    f.bytes = pixelBytes cfg0 brt r g b := by
  unfold pixelFrame channelBytes at h
  rw [chOrder_toNat] at h
  unfold pixelBytes orderBytes
  generalize cfg0.toNat % 8 = order at h
  split at h
  · rename_i c1 c2 c3 hc
    obtain rfl : _ = f := by simpa using h
    rw [← brightnessByte_eq]
    split at hc <;> cases hc <;> rfl
  · cases h

/-- No pixel frame is built under a reserved channel order only (44 R148). -/
theorem pixelBeats_cases (cfg0 : Word) (brt r g b : Byte) :
    pixelBeats cfg0 brt r g b = seg (pixelBytes cfg0 brt r g b) ∨
      (pixelBeats cfg0 brt r g b = [] ∧ ¬ cfg0.toNat % 8 ≤ 5) := by
  unfold pixelBeats
  split
  · rename_i f hf
    exact .inl (by rw [pixelFrame_bytes hf])
  · rename_i hf
    refine .inr ⟨rfl, fun h => ?_⟩
    obtain ⟨f, hf'⟩ := pixelFrame_exists_some h brt r g b
    rw [hf] at hf'
    cases hf'

/-- The frame of a latch is that of the encoder's result (44 R143, R144). -/
theorem pixelBytes_latch (cfg0 : Word) (d : DeviceColor) :
    pixelBytes cfg0 (d.brt.setWidth 8) d.red d.grn d.blu = pixelBytesN cfg0 (pixelN d) := by
  simp [pixelBytesN, pixelN, BitVec.ofNat_toNat]

theorem latchBeats_cases (cfg0 : Word) (d : DeviceColor) :
    latchBeats cfg0 d = seg (pixelBytesN cfg0 (pixelN d)) ∨ (latchBeats cfg0 d = [] ∧ ¬ cfg0.toNat % 8 ≤ 5) := by
  rw [← pixelBytes_latch]
  exact pixelBeats_cases cfg0 _ _ _ _

/-! ## Register fields -/

/-- A bit of a register over the natural numbers. -/
theorem getLsbD_iff (v : Word) (k : Nat) : v.getLsbD k = true ↔ v.toNat / 2 ^ k % 2 = 1 := by
  rw [BitVec.getLsbD, Nat.testBit_eq_decide_div_mod_eq, decide_eq_true_iff]

/-- `PIXPERC8` takes its correction from `CORR` where `CORR_EN` is set (44 R144, 10 R18, R21). -/
theorem registerCorrection_eq (s : State) : registerCorrection s = frameCorrection s := by
  unfold registerCorrection frameCorrection corrEn
  simp only [getLsbD_iff, corrR, corrG, corrB, BitVec.extractLsb', Nat.shiftRight_eq_div_pow, Nat.pow_zero, Nat.div_one]

/-! ## The end frame -/

/-- `ceil16` does not wrap (41 R106, 44 R149). -/
theorem ceil16_toNat (v : Word) : (ceil16 v).toNat = (v.toNat + 15) / 16 := by
  have hLow : v.extractLsb' 0 4 = 0#4 ↔ v.toNat % 16 = 0 := by
    rw [← BitVec.toNat_inj]
    simp
  have hlt := v.isLt
  rw [ceil16, BitVec.toNat_add, BitVec.toNat_ushiftRight, Nat.shiftRight_eq_div_pow]
  split <;> rename_i h <;> rw [hLow] at h
  · rw [show (0 : Word).toNat = 0 from rfl]
    omega
  · rw [show (1 : Word).toNat = 1 from rfl]
    omega

theorem endFrame_count (s : State) : (endFrame s).1.toNat = endCount s s.n.toNat := by
  unfold endFrame endCount endFixed cntSupplied
  simp only [getLsbD_iff]
  by_cases hFixed : s.cfg0.toNat / 2 ^ 3 % 2 = 1
  · rw [if_pos hFixed, if_pos hFixed]
  · rw [if_neg hFixed, if_neg hFixed, ceil16_toNat]
    split <;> rfl

theorem endFrame_fill (s : State) : (endFrame s).2 = endFill s := by
  unfold endFrame endFill endFixed endPol
  simp only [getLsbD_iff]
  split_ifs <;> simp_all

/-! ## Every frame command -/

/-- The beats of `END` are those of the reset frame, if enabled, and of the end frame (44 R145). -/
theorem presents_endFrame (s : State) : presents .endFrame s = planned .endFrame s := by
  show _ = endBeats s s.n.toNat
  unfold endBeats
  rw [← endFrame_count, ← endFrame_fill]
  simp only [← getLsbD_iff]
  rfl

/-- What a frame command presents is planned; nothing, where its pixel frame cannot be built. -/
theorem presents_cases (i : Instr) (s : State) :
    presents i s = planned i s ∨ (presents i s = [] ∧ ¬ s.cfg0.toNat % 8 ≤ 5) := by
  cases i with
  | beginFrame => exact .inl rfl
  | pixdev brt r g b => exact pixelBeats_cases s.cfg0 brt r g b
  | pixlin16 brt r g b =>
    have h := latchBeats_cases s.cfg0 (encLin16 r g b brt s.w).out
    rw [encLin16_pixelN] at h
    exact h
  | pixperc8 brt r g b =>
    have hOut : pixelN (encPerc8 r g b brt (registerCorrection s) s.w).out
        = encPercN r g b brt.toNat (frameCorrection s) := by rw [encPerc8_pixelN, registerCorrection_eq]
    have h := latchBeats_cases s.cfg0 (encPerc8 r g b brt (registerCorrection s) s.w).out
    rw [hOut] at h
    exact h
  | endFrame => exact .inl (presents_endFrame s)
  | _ => exact .inl rfl

/-- With a channel order that can occur the planned beats are presented (10 R18). -/
theorem presents_eq_planned (i : Instr) {s : State} (h : s.cfg0.toNat % 8 ≤ 5) : presents i s = planned i s :=
  (presents_cases i s).resolve_right fun hc => hc.2 h

/-- In every state the beats presented are a first part of the planned ones. -/
theorem presents_prefix_planned (i : Instr) (s : State) : presents i s <+: planned i s := by
  rcases presents_cases i s with h | ⟨h, -⟩ <;> rw [h]
  exact List.nil_prefix

end Sys2Proof.Laws
end

