-- ==== Sys2Proof/Proofs/FramePort.lean ====
section
/-! A frame command that executes is one run of its planned beats (spec 44 R140 to R148): what an unanswered beat leaves
(20 R46), and what any step adds to the records of beats and responses (20 R45, R48). -/

namespace Sys2Proof.Laws

open Sys2Proof.Machine Sys2Proof.Safety

/-! ## A frame command as a run of beats -/

/-- `i` runs its planned beats from its start, then its last lines, with registers it leaves to `w` and `fb`. -/
def RunsPlanned (i : Instr) (s : State) (o : Host.Outcome State Fault Refusal) : Prop :=
  ∃ (w : Work) (fb : FrameBuf) (f : State → Flow), Runs f (planned i s) ∧
    o = .next ((f (started i s w fb)).finish fun t => respond .ok 0 (completed i t))

/-- A pixel command in `FRAMING` below the count's maximum reaches its body (44 R146, R147). -/
theorem pixelAdmitted_eq {s : State} {body : State → Host.Outcome State Fault Refusal} (hs : s.st = .framing)
    (hn : s.n ≠ 0xFFFFFFFF) : ifAdmitted .pixelCmd s (fun s => ifCountable s body) = body s := by
  rw [ifAdmitted_of_none (by rw [hs]; rfl), ifCountable, if_neg hn]

/-- `EmitPixel` of a command that has put `w` into its working registers runs its pixel frame (44 R148). -/
theorem emitPixel_runsPlanned {i : Instr} {s : State} {brt r g b : Byte} (w : Work) (hi : isPixel i = true)
    (hOrder : s.cfg0.toNat % 8 ≤ 5) (hp : presents i s = pixelBeats s.cfg0 brt r g b) :
    RunsPlanned i s (emitPixel brt r g b { s with w := w }) := by
  obtain ⟨fr, hfr⟩ := pixelFrame_exists_some hOrder brt r g b
  have hBeats : planned i s = seg fr.bytes := by
    rw [← presents_eq_planned i hOrder, hp, pixelBeats, hfr]
  have hStart : ({ s with w := w, fb := fr } : State) = started i s w fr := by
    rw [started, startCount, if_neg (by rintro rfl; cases hi)]
  refine ⟨w, fr, txSeg fr.bytes, hBeats ▸ runs_txSeg fr.bytes, ?_⟩
  rw [emitPixel_of_some (s := { s with w := w }) hfr, ← hStart]
  simp only [completed_of_isPixel hi]

/-- EVERY frame command that executes is one run of its planned beats (44 R141 to R145). -/
theorem exec_runsPlanned {i : Instr} {s : State} (hOrder : s.cfg0.toNat % 8 ≤ 5) (hx : Executes i s) :
    RunsPlanned i s (exec i s) := by
  rcases hx with rfl | ⟨hi, hs, hn⟩ | ⟨rfl, hs⟩
  · exact ⟨s.w, s.fb, txSeg zeroFrame, runs_txSeg zeroFrame, rfl⟩
  · cases i with
    | pixdev brt r g b =>
      rw [exec, execPixdev, pixelAdmitted_eq hs hn]
      exact emitPixel_runsPlanned s.w hi hOrder rfl
    | pixlin16 brt r g b =>
      rw [exec, execPixlin16, pixelAdmitted_eq hs hn]
      exact emitPixel_runsPlanned _ hi hOrder rfl
    | pixperc8 brt r g b =>
      rw [exec, execPixperc8, pixelAdmitted_eq hs hn]
      exact emitPixel_runsPlanned _ hi hOrder rfl
    | _ => cases hi
  · obtain ⟨f, hf, hEnd⟩ := end_runs s
    refine ⟨s.w, s.fb, f, presents_endFrame s ▸ hf, ?_⟩
    rw [exec, execEnd, ifAdmitted_of_none (by rw [hs]; rfl), hEnd]
    rfl

/-! ## A beat that is never answered -/

/-- Settles O59: the run halts at the silent beat, before the command's last lines. -/
theorem silentTransportStalls : Obligations.SilentTransportStalls := by
  rintro i s k p rest ⟨-, hOrder, -⟩ hx hp hSilent
  obtain ⟨w, fb, f, hRuns, hExec⟩ := exec_runsPlanned hOrder hx
  obtain ⟨bi, ec, hHalt⟩ := hRuns.silent (started i s w fb) k p rest hp hSilent
  refine ⟨w, bi, ec, fb, ?_⟩
  rw [hExec, hHalt, List.append_assoc]
  rfl

/-! ## The records of beats and responses -/

/-- A beat without the answer it drew. -/
def unanswered (b : Beat) : Byte × Bool := (b.byte, b.last)

theorem map_unanswered_okBeats (ps : List (Byte × Bool)) : (okBeats ps).map unanswered = ps := by
  rw [okBeats, List.map_map]
  exact List.map_id ps

/-- A run cut short at its `k`-th beat has presented the first `k + 1` of its beats, each once. -/
theorem map_unanswered_lastBeat {ps : List (Byte × Bool)} {k : Nat} {p : Byte × Bool} (a : Answer) (hp : ps[k]? = some p) :
    (okBeats (ps.take k) ++ [answered a p]).map unanswered = ps.take (k + 1) := by
  rw [List.map_append, map_unanswered_okBeats, List.take_add_one, hp]
  rfl

theorem regWrite_tx (idx : BitVec 4) (val : Word) (s : State) : (regWrite idx val s).tx = s.tx := by
  unfold regWrite
  split <;> rfl

/-- Every effect of a command adds to the record a first part of the beats it presents, in order and each once (20 R45). -/
theorem effect_tx {i : Instr} {s t : State} (h : Effect i s t) :
    ∃ bs : List Beat, t.tx = s.tx ++ bs ∧ bs.map unanswered <+: presents i s := by
  cases h with
  | refused x => exact ⟨[], by simp, List.nil_prefix⟩
  | replied p w => exact ⟨[], by simp, List.nil_prefix⟩
  | wrote idx val => exact ⟨[], by simp [regWrite_tx], List.nil_prefix⟩
  | done w fb rest bi ec =>
    exact ⟨okBeats (presents i s), by rw [respond_tx, completed_tx]; rfl, by rw [map_unanswered_okBeats]⟩
  | aborted w fb k e p rest bi ec hx hp =>
    exact ⟨_, raise_tx _ _, map_unanswered_lastBeat _ hp ▸ List.take_prefix _ _⟩
  | silent w fb k p rest bi ec hx hp => exact ⟨_, rfl, map_unanswered_lastBeat _ hp ▸ List.take_prefix _ _⟩

/-- The planned beats do not depend on what the host will do. -/
theorem planned_setHost (i : Instr) (s : State) (rest : List HostEvent) :
    planned i { s with host := rest } = planned i s := rfl

/-- Settles O18: of what a step can be only a command presents beats, a first part of the planned ones; and only a command or
the refusal of a word responds, once. -/
theorem portRecordsOnlyGrow : Obligations.PortRecordsOnlyGrow := by
  intro s t h
  rcases step_cases h with ⟨-, rfl⟩ | ⟨rest, -, rfl⟩ | ⟨c, rest, e, -, -, rfl⟩ | ⟨c, rest, i, hHost, -, hDecode, he⟩
  · exact ⟨⟨[], by simp⟩, [], by simp⟩
  · exact ⟨⟨[], by simp [resetEvent]⟩, [], by simp [resetEvent]⟩
  · exact ⟨⟨[], by simp⟩, [⟨.illegal, 0⟩], rfl, Nat.le_refl 1⟩
  · constructor
    · obtain ⟨bs, hTx, hPrefix⟩ := effect_tx (exec_effect he)
      refine ⟨bs, hTx, fun _ => ⟨i, ⟨c, by rw [hHost]; rfl, hDecode⟩, ?_⟩⟩
      exact planned_setHost i s rest ▸ hPrefix.trans (presents_prefix_planned i _)
    · rcases effect_flags (exec_effect he) with ⟨r, hResponse, -⟩ | ⟨hNone, -⟩
      · exact ⟨[r], hResponse, Nat.le_refl 1⟩
      · exact ⟨[], by simp [hNone], Nat.zero_le 1⟩

/-! ## What a step finds on the command port -/

/-- Settles O6: `fetch` accepts the word, and taking it off the port is all that happens before `exec` (20 R50). -/
theorem stepRunsDecodedCommand : Obligations.StepRunsDecodedCommand := by
  intro s c rest i hWaiting hHost hDecode
  have hFetch : fetch s = .instr i { s with host := rest } := by
    simp [fetch, takeEvent, hHost, hWaiting, hDecode]
  rw [step, hFetch]

/-- Settles O11: what `fetch` finds in the two situations (20 R46, 60 R198, 70 R214). -/
theorem blockWaitsForTransportOrHost : Obligations.BlockWaitsForTransportOrHost := by
  constructor
  · intro s hWaiting hReset
    have hFetch : fetch s = .stuck := by
      rcases hHost : s.host with _ | ⟨c | _, rest⟩
      · simp [fetch, hHost, hWaiting]
      · simp [fetch, hHost, hWaiting]
      · exact absurd (congrArg List.head? hHost) hReset
    rw [step, hFetch]
  · intro s hWaiting hHost
    have hFetch : fetch s = .idle := by simp [fetch, hHost, hWaiting]
    rw [step, hFetch]

end Sys2Proof.Laws
end

