-- ==== Sys2Proof/Proofs/CommandWords.lean ====
section
/-! Command words (spec 30 R61 to R65, R74 (a), (b)). Every row of the opcode map has its own `OP`, so a word meets one row at
most and `decode` may be read row by row; and a row's fields keep every bit that its mask leaves open, so that decoding and
encoding are inverse to each other. -/

namespace Sys2Proof.Laws

open Sys2Proof

/-! ## One row for each `OP` (30 R63) -/

/-- Every mask fixes `OP`, and the row at place `k` of the map is that of `OP` `k + 1`. -/
theorem opRows_op :
    opRows.map (fun r => (cmdOp r.mask, cmdOp r.pattern)) =
      (List.range 14).map fun k => (BitVec.allOnes 4, BitVec.ofNat 4 (k + 1)) := by decide

theorem cmdField_and (lo len : Nat) (a b : Cmd) :
    cmdField lo len (a &&& b) = cmdField lo len a &&& cmdField lo len b := by
  ext i hi
  simp [cmdField]

/-- A field that a row's mask fixes is that of its match. -/
theorem cmdField_of_masked {c m p : Cmd} {lo len : Nat} (h : c &&& m = p) (hm : cmdField lo len m = BitVec.allOnes len) :
    cmdField lo len c = cmdField lo len p := by
  rw [← h, cmdField_and, hm, BitVec.and_allOnes]

/-- A word that meets a row has the row's `OP`, which tells the row's place in the map. -/
theorem cmdOp_of_hit {c : Cmd} {k : Nat} {r : OpRow} (hr : opRows[k]? = some r) (hc : r.hit c = true) :
    k < 14 ∧ (cmdOp c).toNat = k + 1 := by
  have hk : k < 14 := (List.getElem?_eq_some_iff.mp hr).1
  have hRow := congrArg (·[k]?) opRows_op
  simp only [List.getElem?_map, hr, List.getElem?_range hk, Option.map_some, Option.some.injEq, Prod.mk.injEq] at hRow
  obtain ⟨hMask, hPattern⟩ := hRow
  have hOp : cmdOp c = cmdOp r.pattern := cmdField_of_masked (beq_iff_eq.mp hc) hMask
  rw [hOp, hPattern, BitVec.toNat_ofNat]
  omega

/-- Settles O4: both places are told by the word's `OP`. -/
theorem noWordMeetsTwoRows : Obligations.NoWordMeetsTwoRows := by
  refine ⟨rfl, fun c j k r r' hr hr' hc hc' => ?_⟩
  have hj := (cmdOp_of_hit hr hc).2
  have hk := (cmdOp_of_hit hr' hc').2
  omega

/-! ## Decoding, row by row -/

/-- The row a word meets is the one the decoder finds. -/
theorem decode_of_hit {c : Cmd} {r : OpRow} (hr : r ∈ opRows) (hc : r.hit c = true) : decode c = .ok (r.fields c) := by
  obtain ⟨k, hk⟩ := List.mem_iff_getElem?.mp hr
  have hSome : (opRows.find? fun r => r.hit c).isSome := List.find?_isSome.mpr ⟨r, hr, hc⟩
  obtain ⟨r', hFind⟩ := Option.isSome_iff_exists.mp hSome
  obtain ⟨j, hj⟩ := List.mem_iff_getElem?.mp (List.mem_of_find?_eq_some hFind)
  obtain rfl := noWordMeetsTwoRows.2 c j k r' r hj hk (List.find?_some (p := fun r : OpRow => r.hit c) hFind) hc
  obtain rfl : r' = r := Option.some.inj (hj.symm.trans hk)
  rw [decode, hFind]

/-- A word is a command exactly by meeting a row, whose fields are its operands (30 R63, R65). -/
theorem decode_eq_ok_iff {c : Cmd} {i : Instr} :
    decode c = .ok i ↔ ∃ r ∈ opRows, r.hit c = true ∧ r.fields c = i := by
  constructor
  · intro h
    unfold decode at h
    split at h
    · rename_i r hFind
      exact ⟨r, List.mem_of_find?_eq_some hFind, List.find?_some (p := fun r : OpRow => r.hit c) hFind, Except.ok.inj h⟩
    · split at h <;> cases h
  · rintro ⟨r, hr, hc, rfl⟩
    exact decode_of_hit hr hc

/-- The word of every command meets a row that gives the command back. -/
theorem encode_meets_row (i : Instr) : Encoding.Statement i := by
  cases i with
  | beginFrame => exact Encoding.beginFrame
  | pixdev brt red grn blu => exact Encoding.pixdev brt red grn blu
  | pixlin16 brt r g b => exact Encoding.pixlin16 brt r g b
  | pixperc8 brt r g b => exact Encoding.pixperc8 brt r g b
  | endFrame => exact Encoding.endFrame
  | cfgwr idx val => exact Encoding.cfgwr idx val
  | cfgrd idx => exact Encoding.cfgrd idx
  | gamma idx => exact Encoding.gamma idx
  | scale val sc => exact Encoding.scale val sc
  | map val => exact Encoding.map val
  | bshift8 src dst max => exact Encoding.bshift8 src dst max
  | bshift16 src dst max steps => exact Encoding.bshift16 src dst max steps
  | enclin16 brt r g b => exact Encoding.enclin16 brt r g b
  | encperc8 brt r g b cp cr cg cb => exact Encoding.encperc8 brt r g b cp cr cg cb

/-- Settles O1: the row that the command's word meets is the one the decoder finds. -/
theorem everyCommandRoundTrips : Obligations.EveryCommandRoundTrips := fun i => decode_eq_ok_iff.mpr (encode_meets_row i)

/-- Settles O3: each word is the encoding of its command. -/
theorem specWordsDecode : Obligations.SpecWordsDecode :=
  ⟨everyCommandRoundTrips .beginFrame, everyCommandRoundTrips (.pixdev 5 0xAA 0xBB 0xCC),
    everyCommandRoundTrips (.pixlin16 64 0x0100 0 0), everyCommandRoundTrips (.pixperc8 255 255 127 43),
    everyCommandRoundTrips .endFrame, everyCommandRoundTrips (.cfgwr 3 0x00FF8000), everyCommandRoundTrips (.cfgrd 6),
    everyCommandRoundTrips (.gamma 127), everyCommandRoundTrips (.scale 0x1234 86), everyCommandRoundTrips (.map 0xBFFF),
    everyCommandRoundTrips (.bshift8 64 3 2), everyCommandRoundTrips (.bshift16 16 1 4 1),
    everyCommandRoundTrips (.enclin16 200 0x1234 0x5678 0x0ABC),
    everyCommandRoundTrips (.encperc8 0 255 255 255 true 1 2 3)⟩

/-! ## No bit of a command word is ignored (30 R65) -/

/-- A field put back at its place is the word with every other bit cleared. -/
theorem putField_cmdField (lo len : Nat) (c : Cmd) :
    putField lo (cmdField lo len c) = c &&& putField lo (BitVec.allOnes len) := by
  ext i hi
  simp only [putField, cmdField, BitVec.getElem_shiftLeft, BitVec.getElem_and, BitVec.getElem_setWidth,
    BitVec.getLsbD_extractLsb', BitVec.getLsbD_allOnes]
  by_cases hlt : i < lo
  · simp [hlt]
  · rw [show lo + (i - lo) = i by omega, BitVec.getLsbD_eq_getElem hi]
    simp [hlt, Bool.and_comm]

/-- A one-bit field read as a truth value is still that field. -/
theorem ofBool_cmdField (lo : Nat) (c : Cmd) : BitVec.ofBool (cmdField lo 1 c == 1) = cmdField lo 1 c := by
  generalize cmdField lo 1 c = f
  revert f
  decide

/-- What a row's fields spell: the row's match, and every bit that its mask leaves open as the word has it. -/
theorem encode_fields {r : OpRow} (hr : r ∈ opRows) (c : Cmd) :
    encode (r.fields c) = r.pattern ||| (c &&& ~~~r.mask) := by
  simp only [opRows, frameRows, registerRows, computeRows, List.cons_append, List.nil_append, List.mem_cons,
    List.not_mem_nil, or_false] at hr
  rcases hr with rfl | rfl | rfl | rfl | rfl | rfl | rfl | rfl | rfl | rfl | rfl | rfl | rfl | rfl <;>
    simp only [encode, ofBool_cmdField, putField_cmdField, BitVec.or_assoc, ← BitVec.and_or_distrib_left]
  -- `BEGIN` and `END` have no field
  case inl | inr.inr.inr.inr.inl => simp [putField]
  all_goals rfl

/-- Settles O2: the word is the match and the open bits of the row it meets, and by `encode_fields` so is the encoding. -/
theorem everyCommandWordHasOneSpelling : Obligations.EveryCommandWordHasOneSpelling := by
  intro c i h
  obtain ⟨r, hr, hc, rfl⟩ := decode_eq_ok_iff.mp h
  have hPattern : c &&& r.mask = r.pattern := beq_iff_eq.mp hc
  calc encode (r.fields c) = c &&& r.mask ||| c &&& ~~~r.mask := by rw [encode_fields hr, hPattern]
    _ = c := by rw [← BitVec.and_or_distrib_left, BitVec.or_not_self, BitVec.and_allOnes]

/-! ## Words that are no command (30 R74 (a), (b)) -/

theorem cmdOp_toNat (c : Cmd) : (cmdOp c).toNat = c.toNat / 2 ^ 60 := by
  have hlt := c.isLt
  rw [cmdOp, cmdField, BitVec.extractLsb'_toNat, Nat.shiftRight_eq_div_pow]
  omega

/-- The opcodes that no command has (30 R74 (a)). -/
theorem reservedOp_iff (c : Cmd) : (cmdOp c = 0x0 ∨ cmdOp c = 0xF) ↔ c.toNat / 2 ^ 60 = 0 ∨ c.toNat / 2 ^ 60 = 15 := by
  rw [← cmdOp_toNat, ← BitVec.toNat_inj, ← BitVec.toNat_inj]
  rfl

/-- What the decoder says of a word, by its `OP`. -/
theorem decode_cases (c : Cmd) :
    (∃ i, decode c = .ok i ∧ 1 ≤ c.toNat / 2 ^ 60 ∧ c.toNat / 2 ^ 60 ≤ 14) ∨
    (decode c = .error .reservedOpcode ∧ (c.toNat / 2 ^ 60 = 0 ∨ c.toNat / 2 ^ 60 = 15)) ∨
    (decode c = .error .reservedBits ∧ 1 ≤ c.toNat / 2 ^ 60 ∧ c.toNat / 2 ^ 60 ≤ 14) := by
  rcases hd : decode c with e | i
  · right
    have hlt := c.isLt
    unfold decode at hd
    split at hd
    · cases hd
    · split at hd <;> cases hd
      · rename_i hOp
        exact .inl ⟨rfl, (reservedOp_iff c).mp hOp⟩
      · rename_i hOp
        rw [reservedOp_iff] at hOp
        exact .inr ⟨rfl, by omega⟩
  · obtain ⟨r, hr, hc, -⟩ := decode_eq_ok_iff.mp hd
    obtain ⟨k, hk⟩ := List.mem_iff_getElem?.mp hr
    obtain ⟨hlt, hOp⟩ := cmdOp_of_hit hk hc
    rw [cmdOp_toNat] at hOp
    exact .inl ⟨i, rfl, by omega⟩

/-- Settles O5: `decode_cases`, a word being a command exactly when some instruction encodes to it. -/
theorem wordsRejectedByName : Obligations.WordsRejectedByName := by
  have hCommand : ∀ c i, decode c = .ok i ↔ encode i = c := fun c i =>
    ⟨everyCommandWordHasOneSpelling c i, fun h => h ▸ everyCommandRoundTrips i⟩
  constructor <;> intro c <;> rcases decode_cases c with ⟨i, hd, hOp⟩ | ⟨hd, hOp⟩ | ⟨hd, hOp⟩
  · exact iff_of_false (by simp [hd]) (by omega)
  · exact iff_of_true hd hOp
  · exact iff_of_false (by simp [hd]) (by omega)
  · exact iff_of_false (by simp [hd]) fun ⟨_, _, hNone⟩ => hNone i ((hCommand c i).mp hd)
  · exact iff_of_false (by simp [hd]) fun ⟨hLow, hHigh, _⟩ => by omega
  · exact iff_of_true hd ⟨hOp.1, hOp.2, fun i hi => by simp [(hCommand c i).mpr hi] at hd⟩

end Sys2Proof.Laws
end

