-- ==== Sys2Proof/Proofs/CommandResponses.lean ====
section
/-! How a command answers (spec 30 R64, R74): with one response unless it stalls, with `ILLEGAL` exactly when it is malformed,
and, for a compute command or `CFGRD`, without touching anything else (10 R14). -/

namespace Sys2Proof.Laws

open Sys2Proof Sys2Proof.Machine Sys2Proof.Safety

/-! ## One response, or a stall -/

/-- A refusal adds one response, `ILLEGAL` only for a malformed command (60 R185). -/
theorem refuses_responds {i : Instr} {s : State} {x : Exn} (hx : Refuses i s x) :
    ∃ r, (raise x s).responses = s.responses ++ [r] ∧ (r.code = .illegal → i.wellFormed = false) := by
  cases x with
  | xerr e => exact hx.elim
  | proto => exact ⟨_, rfl, nofun⟩
  | illegal => exact ⟨_, rfl, fun _ => hx⟩
  | ovf => exact ⟨_, rfl, nofun⟩
  | flushed => exact ⟨_, rfl, nofun⟩

theorem completed_waiting (i : Instr) (s : State) : (completed i s).waiting = s.waiting := by cases i <;> rfl

theorem regWrite_waiting (idx : BitVec 4) (val : Word) (s : State) : (regWrite idx val s).waiting = s.waiting := by
  unfold regWrite
  split <;> rfl

/-- A command ends with one response, `ILLEGAL` only where it is malformed, or stalls without any (30 R64, 20 R46). -/
theorem effect_responds {i : Instr} {s t : State} (h : Effect i s t) :
    (t.waiting = s.waiting ∧ ∃ r, t.responses = s.responses ++ [r] ∧ (r.code = .illegal → i.wellFormed = false)) ∨
      (t.waiting = true ∧ t.responses = s.responses) := by
  cases h with
  | refused x hx => exact .inl ⟨raise_waiting x s, refuses_responds hx⟩
  | replied p w => exact .inl ⟨rfl, _, rfl, nofun⟩
  | wrote idx val =>
    exact .inl ⟨regWrite_waiting idx val s, ⟨.ok, 0⟩, by rw [respond_responses, regWrite_responses], nofun⟩
  | done w fb rest bi ec => exact .inl ⟨completed_waiting i _, ⟨.ok, 0⟩, by simp, nofun⟩
  | aborted w fb k e p rest bi ec => exact .inl ⟨rfl, _, rfl, nofun⟩
  | silent w fb k p rest bi ec => exact .inr ⟨rfl, rfl⟩

/-- Settles O17: `effect_responds`, from a state with no command in progress. -/
theorem oneResponsePerCommand : Obligations.OneResponsePerCommand := by
  intro i s t hWaiting h
  rcases effect_responds (exec_effect h) with ⟨hEnd, r, hResponse, -⟩ | hStall
  · exact .inl ⟨hEnd.trans hWaiting, r, hResponse⟩
  · exact .inr hStall

/-! ## `ILLEGAL` (30 R74, 60 R188) -/

/-- A malformed command is refused before anything else. -/
theorem exec_malformed {i : Instr} (h : i.wellFormed = false) (s : State) : exec i s = .next (raise .illegal s) := by
  cases i with
  | cfgwr idx val => exact exec_cfgwr_malformed h s
  | cfgrd idx => exact exec_cfgrd_malformed h s
  | bshift16 src dst max steps => simp [exec, execBshift16, stepsLegal_eq src dst max, h]
  | encperc8 brt r g b cp cr cg cb => simp [exec, execEncperc8, corrLegal_eq brt r g b, h]
  | _ => cases h

/-- Settles O8: `exec_malformed`, and by `effect_responds` no other command responds `ILLEGAL`. -/
theorem illegalExactlyWhenMalformed : Obligations.IllegalExactlyWhenMalformed := by
  refine ⟨fun i s h => exec_malformed h s, fun i s t p hWell h hIllegal => ?_⟩
  rcases effect_responds (exec_effect h) with ⟨-, r, hResponse, hCode⟩ | ⟨-, hNone⟩
  · obtain rfl : r = ⟨.illegal, p⟩ := by simpa [hResponse] using hIllegal
    simp [hCode rfl] at hWell
  · simp [hNone] at hIllegal

/-- Settles O7: `fetch` takes the word and finds no command in it. -/
theorem stepRefusesWordsThatAreNoCommand : Obligations.StepRefusesWordsThatAreNoCommand := by
  intro s c rest e hWaiting hHost hDecode
  have hFetch : fetch s = .illegal { s with host := rest } := by
    simp [fetch, takeEvent, hHost, hWaiting, hDecode]
  rw [step, hFetch]
  rfl

/-! ## Compute commands and `CFGRD` (30 R62) -/

/-- A compute command or `CFGRD` is of no other kind. -/
theorem kinds_of_reply {i : Instr} (hi : isCompute i = true ∨ ∃ idx, i = .cfgrd idx) :
    isPixel i = false ∧ isCfgwr i = false ∧ i ≠ .beginFrame ∧ i ≠ .endFrame := by
  rcases hi with hi | ⟨idx, rfl⟩
  · cases i <;> simp_all [isCompute, isPixel, isCfgwr]
  · exact ⟨rfl, rfl, nofun, nofun⟩

/-- Such a command is no frame command, and refused for its operands only (44 R146). -/
theorem effect_of_reply {i : Instr} {s t : State} (hi : isCompute i = true ∨ ∃ idx, i = .cfgrd idx)
    (h : Effect i s t) : t = raise .illegal s ∨ ∃ p w, t = respond .ok p { s with w := w } := by
  obtain ⟨hPixel, hCfgwr, hBegin, hEnd⟩ := kinds_of_reply hi
  have hFrame : ¬ Executes i s := by simp [Executes, hPixel, hBegin, hEnd]
  cases h with
  | refused x hx =>
    cases x with
    | illegal => exact .inl rfl
    | _ => simp [Refuses, hPixel, hCfgwr, hEnd] at hx
  | replied p w => exact .inr ⟨p, w, rfl⟩
  | wrote idx val hw => simp [hw, isCfgwr] at hCfgwr
  | done w fb rest bi ec hx => exact absurd hx hFrame
  | aborted w fb k e p rest bi ec hx => exact absurd hx hFrame
  | silent w fb k p rest bi ec hx => exact absurd hx hFrame

/-- Settles O26: both ways such a command ends change nothing else. -/
theorem computeAndReadCommandsFrame : Obligations.ComputeAndReadCommandsFrame := by
  intro i s t hi h
  rcases effect_of_reply hi (exec_effect h) with rfl | ⟨p, w, rfl⟩
  · rfl
  · rfl

end Sys2Proof.Laws
end

/-! The gamma table (spec 40 R91, R92, R94): it is legal whatever the free table is, `GAMMA` reads it, and its three bounds are
exactly what the source's worked example needs (95 S7). -/

namespace Sys2Proof.Laws

open Sys2Proof Sys2Proof.Machine Sys2Proof.Safety

/-! ## The table -/

/-- The fallback table meets R91 and R92: it is a staircase whose steps end at 43 and 127. -/
theorem gammaStep_legal : Config.GammaLegal Config.gammaStep := by
  refine ⟨fun i j hij => ?_, by decide, by decide, by decide⟩
  unfold Config.gammaStep
  split_ifs <;> bv_omega

/-- The table meets R91 and R92, whether it is the free table or the fallback. -/
theorem gamma_legal : Config.GammaLegal Config.gamma := by
  by_cases h : Config.GammaLegal Config.gammaFree
  · rwa [show Config.gamma = Config.gammaFree from funext fun _ => if_pos h]
  · rw [show Config.gamma = Config.gammaStep from funext fun _ => if_neg h]
    exact gammaStep_legal

/-- R91, for indices that may be equal. -/
theorem gamma_le_gamma {i j : Byte} (h : i ≤ j) : Config.gamma i ≤ Config.gamma j := by
  rcases eq_or_ne i j with rfl | hne
  · exact BitVec.le_refl _
  · exact gamma_legal.1 i j (BitVec.lt_of_le_ne h hne)

/-- Settles O36: the table is legal, and the entries beside the three are bounded through `gamma_le_gamma`. -/
theorem gammaTableAsStated : Obligations.GammaTableAsStated := by
  obtain ⟨hMono, ⟨hRed, -⟩, ⟨hGrn, hGrn'⟩, hBlu, hBlu'⟩ := gamma_legal
  exact ⟨hMono, hRed, hGrn, hGrn', hBlu, hBlu', fun i hi => BitVec.le_trans (gamma_le_gamma hi) hBlu',
    fun i hi => BitVec.le_trans hGrn (gamma_le_gamma hi)⟩

/-! ## Compute commands answer in every state (44 R146) -/

theorem answerWith_eq (payload : Word) (s : State) : answerWith payload s = .next (respond .ok payload s) :=
  ifAdmitted_of_none rfl

/-- Settles O35: the entry is zero-extended, so its value is kept. -/
theorem gammaReadsTable : Obligations.GammaReadsTable := fun i s =>
  ⟨(romRead i).setWidth 32, answerWith_eq _ s, BitVec.toNat_setWidth_of_le (by decide)⟩

/-! ## The encoder at brightness 255 -/

theorem headroom_le (m : Nat) : headroom m ≤ 4 := by
  unfold headroom
  split_ifs <;> decide

/-- Step 4 makes no shift exactly when the maximum channel has one of its top two bits set (43 R124). -/
theorem headroom_eq_zero_iff {m : Nat} : headroom m = 0 ↔ 0x4000 ≤ m := by
  unfold headroom
  split_ifs <;> simp <;> omega

/-- Step 6 gives brightness 31 only to an accumulator that no step has shifted. -/
theorem thirtyTwo_div_sub_one_eq_iff {t : Nat} (ht : t ≤ 4) : 32 / 2 ^ t - 1 = 31 ↔ t = 0 := by
  interval_cases t <;> decide

/-- At brightness 255 step 3 makes no shift and step 5 is skipped (40 R92). -/
theorem encLinN_full {r g b m : Nat} (hm : m = max r (max g b)) (hLit : 0 < m) :
    encLinN r g b 255 =
      ⟨32 / 2 ^ headroom m - 1, mapN (r * 2 ^ headroom m), mapN (g * 2 ^ headroom m), mapN (b * 2 ^ headroom m)⟩ := by
  have hShift : shiftTwo 255 m = headroom m := by
    unfold shiftTwo headroom
    split_ifs <;> rfl
  rw [encLinN, if_neg (by decide), if_neg (by omega)]
  simp [← hm, channelN, shiftOne, hShift]

/-- THE WORKED EXAMPLE over the natural numbers: brightness 31 needs step 4 to make no shift, and then each channel is
`map16_to_8` of its operand (40 R92, 41 R104). -/
theorem encLinN_workedExample_iff {r g b : Nat} :
    encLinN r g b 255 = ⟨31, 255, 42, 3⟩ ↔
      0xFE80 ≤ r ∧ 0x2980 ≤ g ∧ g ≤ 0x2A7F ∧ 0x0280 ≤ b ∧ b ≤ 0x037F := by
  rcases Nat.eq_zero_or_pos (max r (max g b)) with hDark | hLit
  · obtain ⟨rfl, rfl, rfl⟩ : r = 0 ∧ g = 0 ∧ b = 0 := by omega
    decide
  · have hRoom := headroom_eq_zero_iff (m := max r (max g b))
    rw [encLinN_full rfl hLit, PixelN.mk.injEq, thirtyTwo_div_sub_one_eq_iff (headroom_le _)]
    by_cases h : headroom (max r (max g b)) = 0
    · simp only [h, Nat.pow_zero, Nat.mul_one, mapN, true_and]
      omega
    · exact iff_of_false (fun hOut => h hOut.1) (by omega)

/-- A device colour is its four numbers. -/
theorem pixelN_inj {d e : DeviceColor} : pixelN d = pixelN e ↔ d = e := by
  cases d; cases e
  simp only [pixelN, PixelN.mk.injEq, DeviceColor.mk.injEq, BitVec.toNat_inj]
  tauto

/-- The worked example for the machine's encoder. -/
theorem encLin16_workedExample_iff (r g b : Half) (w : Work) :
    (encLin16 r g b 255 w).out = ⟨255, 42, 3, 31⟩ ↔
      0xFE80 ≤ r ∧ 0x2980 ≤ g ∧ g ≤ 0x2A7F ∧ 0x0280 ≤ b ∧ b ≤ 0x037F := by
  rw [← pixelN_inj, encLin16_pixelN]
  exact encLinN_workedExample_iff

/-- Settles O51: the three bounds of the table are those of `encLin16_workedExample_iff`. -/
theorem workedExampleForEveryTable : Obligations.WorkedExampleForEveryTable := by
  refine ⟨encLin16_workedExample_iff, fun s => ⟨encPerc8 255 127 43 255 none s.w, ?_⟩⟩
  obtain ⟨-, ⟨hRed, -⟩, ⟨hGrn, hGrn'⟩, hBlu, hBlu'⟩ := gamma_legal
  have hOut : (encPerc8 255 127 43 255 none s.w).out = ⟨255, 42, 3, 31⟩ :=
    (encLin16_workedExample_iff _ _ _ s.w).mpr ⟨hRed, hGrn, hGrn', hBlu, hBlu'⟩
  calc exec (.encperc8 255 255 127 43 false 0 0 0) s
      = answerLatch (encPerc8 255 127 43 255 none s.w) s := rfl
    _ = _ := by
      rw [answerLatch, answerWith_eq, hOut]
      rfl

end Sys2Proof.Laws

/-! The scalers (spec 41 R100, R101, R103, R104): the laws of `scale16by8` and `map16_to_8`, each read off the function's exact
value, and the answers of `SCALE` and `MAP`. -/

namespace Sys2Proof.Laws

open Sys2Proof Sys2Proof.Machine Sys2Proof.Safety

/-! ## The fractional scale -/

/-- R101 (g) over the natural numbers, from scale 0 to scale 1 too. -/
theorem scaleN_le_scaleN {x y c d : Nat} (hx : x ≤ y) (hc : c ≤ d) : scaleN x c ≤ scaleN y d := by
  unfold scaleN
  by_cases h : c = 0
  · rw [if_pos h]
    exact Nat.zero_le _
  · rw [if_neg h, if_neg (by omega)]
    exact Nat.div_le_div_right (Nat.mul_le_mul hx (by omega))

/-- R101 (g), in the value and in the scale at once. -/
theorem scale16by8_le_scale16by8 {x y : Half} {c d : Byte} (hx : x ≤ y) (hc : c ≤ d) :
    scale16by8 x c ≤ scale16by8 y d := by
  rw [BitVec.le_def, scale16by8_toNat, scale16by8_toNat]
  exact scaleN_le_scaleN hx hc

/-- The scale `0xFF >> j` is one less than the power of two that halves a value `j` times. -/
theorem toNat_ones_ushiftRight {j : Nat} (hj : j ≤ 7) : (0xFF#8 >>> j).toNat = 2 ^ (8 - j) - 1 := by
  interval_cases j <;> decide

/-- Scaling by `0xFF >> j` is a shift by `j`: `x * 2 ^ (8 - j) / 2 ^ 8` (R101 (c), (f)). -/
theorem scale16by8_ones_ushiftRight (x : Half) {j : Nat} (hj : j ≤ 7) : scale16by8 x (0xFF#8 >>> j) = x >>> j := by
  have hTwo : 2 ^ 1 ≤ 2 ^ (8 - j) := Nat.pow_le_pow_right (by decide) (by omega)
  have hSplit : 256 = 2 ^ j * 2 ^ (8 - j) := by rw [← Nat.pow_add, Nat.add_sub_cancel' (by omega)]
  apply BitVec.eq_of_toNat_eq
  rw [scale16by8_toNat, toNat_ones_ushiftRight hj, if_neg (by omega), Nat.sub_add_cancel (by omega), hSplit,
    Nat.mul_div_mul_right _ _ (by omega), BitVec.toNat_ushiftRight, Nat.shiftRight_eq_div_pow]

/-- R101 (c): no shift is the identity. -/
theorem scale16by8_full (x : Half) : scale16by8 x 255 = x :=
  scale16by8_ones_ushiftRight x (Nat.zero_le 7)

/-- Settles O38: (b) is (g) at scale 255, which is the identity; (f) composes two shifts. -/
theorem scaleLaws : Obligations.ScaleLaws := by
  refine ⟨fun x c => ?noOverflow, fun x c => ?atMostValue, scale16by8_full, fun _ => rfl, fun x c hc => ?exact,
    fun i j _ hj => ?shifts, fun _ _ _ hx => scale16by8_le_scale16by8 hx (BitVec.le_refl _),
    fun _ _ _ hc => scale16by8_le_scale16by8 (BitVec.le_refl _) hc⟩
  case noOverflow =>
    calc x.toNat * (c.toNat + 1) ≤ 0xFFFF * 256 := Nat.mul_le_mul (by omega) (by omega)
      _ < 2 ^ 24 := by decide
  case atMostValue =>
    calc scale16by8 x c ≤ scale16by8 x 255 := scale16by8_le_scale16by8 (BitVec.le_refl _) (Nat.le_of_lt_succ c.isLt)
      _ = x := scale16by8_full x
  case exact =>
    have hPos : 1 ≤ c.toNat := hc
    rw [scale16by8_toNat, if_neg (by omega)]
  case shifts =>
    rw [scale16by8_ones_ushiftRight _ hj, BitVec.shiftRight_add]

/-! ## The rounding downsample -/

/-- R104 (b). -/
theorem map16to8_le_map16to8 {v u : Half} (h : v ≤ u) : map16to8 v ≤ map16to8 u := by
  have hNat : v.toNat ≤ u.toNat := h
  rw [BitVec.le_def, map16to8_toNat, map16to8_toNat]
  omega

/-- R104 (c): the preimage of an output is centred at `256 * k`, cut off at 0 and, by the clamp, open above for 255. -/
theorem map16to8_eq_iff (v : Half) (k : Byte) :
    map16to8 v = k ↔
      if k.toNat = 0 then v.toNat ≤ 127
      else if k.toNat = 255 then 65152 ≤ v.toNat
      else 256 * k.toNat - 128 ≤ v.toNat ∧ v.toNat ≤ 256 * k.toNat + 127 := by
  rw [← BitVec.toNat_inj, map16to8_toNat]
  split_ifs with hZero hFull <;> omega

/-- Settles O40: (a) to (c) are `map16to8_toNat` and its two consequences; the points of (d) and (e) evaluate. -/
theorem mapLaws : Obligations.MapLaws :=
  ⟨map16to8_toNat, fun _ _ => map16to8_le_map16to8, map16to8_eq_iff, by decide, by decide⟩

/-! ## `SCALE` and `MAP` answer in every state (44 R146) -/

/-- Settles O37: the result is zero-extended, so its value is kept. -/
theorem scaleResult : Obligations.ScaleResult := fun val sc s =>
  ⟨(scale16by8 val sc).setWidth 32, answerWith_eq _ s,
    (BitVec.toNat_setWidth_of_le (by decide)).trans (scale16by8_toNat val sc)⟩

/-- Settles O39: the result is zero-extended, so its value is kept. -/
theorem mapResult : Obligations.MapResult := fun val s =>
  ⟨(map16to8 val).setWidth 32, answerWith_eq _ s,
    (BitVec.toNat_setWidth_of_le (by decide)).trans (map16to8_toNat val)⟩

end Sys2Proof.Laws

/-! The bitshifters (spec 42 R110, R111, R113, R115): the laws of `bshift8` and `bshift16`, each read off the count, source and
destination that `bshift8_spec` and `bshift16_spec` give, and the answers of `BSHIFT8` and `BSHIFT16`. -/

namespace Sys2Proof.Laws

open Sys2Proof Sys2Proof.Machine Sys2Proof.Safety

/-! ## `bshift8` -/

/-- R111 (c). -/
theorem bshift8_of_zero {src dst : Byte} (h : src = 0 ∨ dst = 0) (max : Byte) : bshift8 src dst max = ⟨src, dst, 0⟩ :=
  if_pos h

/-- `n` halvings against `n` doublings keep the product exactly when the halvings drop no set bit (R111 (d)). -/
theorem div_mul_mul_two_pow_eq_iff {s d n : Nat} (hd : d = 0 → n = 0) :
    s / 2 ^ n * (d * 2 ^ n) = s * d ↔ s % 2 ^ n = 0 := by
  rw [← Nat.dvd_iff_mod_eq_zero, Nat.dvd_iff_div_mul_eq, Nat.mul_left_comm, Nat.mul_comm d]
  rcases Nat.eq_zero_or_pos d with rfl | hPos
  · simp [hd rfl]
  · exact Nat.mul_left_inj hPos.ne'

/-- Settles O42: (a) to (c) are `bshift8_spec`; a power of two is shifted at most down to 1, which drops no set bit. -/
theorem bshift8Laws : Obligations.Bshift8Laws := by
  refine ⟨by decide, fun src dst max => ?_⟩
  obtain ⟨n, hMax, hSeven, hSrc, hDst, rfl, hGo, -⟩ := bshift8_spec src dst max
  have hZero : dst.toNat = 0 → (bshift8 src dst max).cnt.toNat = 0 := fun h =>
    Nat.eq_zero_of_not_pos fun hPos => by
      obtain ⟨-, hNe, -⟩ := hGo 0 hPos
      exact hNe h
  have hProduct : (bshift8 src dst max).src.toNat * (bshift8 src dst max).dst.toNat = src.toNat * dst.toNat ↔
      src.toNat % 2 ^ (bshift8 src dst max).cnt.toNat = 0 := by
    rw [hSrc, hDst]
    exact div_mul_mul_two_pow_eq_iff hZero
  refine ⟨hDst, hSrc, Nat.le_min.mpr ⟨hMax, hSeven⟩, fun h => ?zeroInput, fun k hk => ?powerOfTwo, hProduct⟩
  case zeroInput =>
    rw [bshift8_of_zero h]
    exact ⟨rfl, rfl, rfl⟩
  case powerOfTwo =>
    have hCount : (bshift8 src dst max).cnt.toNat ≤ k := Nat.le_of_not_lt fun hlt => by
      obtain ⟨-, -, hGoes, -⟩ := hGo k hlt
      rw [hk, Nat.div_self (Nat.two_pow_pos k)] at hGoes
      exact absurd hGoes (by decide)
    exact hProduct.mpr (Nat.mod_eq_zero_of_dvd (hk ▸ Nat.pow_dvd_pow 2 hCount))

/-- No part of the payload overlaps another (R110). -/
theorem shift8_pack_eq (p : Shift8) :
    p.pack = BitVec.ofNat 32 (p.cnt.toNat * 2 ^ 16 + p.src.toNat * 2 ^ 8 + p.dst.toNat) := by
  apply BitVec.eq_of_toNat_eq
  simp only [Shift8.pack, toNat_append_add, BitVec.toNat_ofNat]
  omega

/-- Settles O41: the answer packs the three parts that `bshift8_spec` gives. -/
theorem bshift8Result : Obligations.Bshift8Result := by
  intro src dst max s
  obtain ⟨n, hMax, hSeven, hSrc, hDst, hCnt, hGo, hStop⟩ := bshift8_spec src dst max
  refine ⟨n, ?_, hMax, hSeven, hDst ▸ (bshift8 src dst max).dst.isLt, hGo, hStop⟩
  calc exec (.bshift8 src dst max) s
      = answerWith (bshift8 src dst max).pack s := rfl
    _ = _ := by
      rw [answerWith_eq, shift8_pack_eq, hCnt, hSrc, hDst]
      rfl

/-! ## `bshift16` -/

/-- R115 (c). -/
theorem bshift16_of_zero {src : Byte} {dst : Half} (h : src = 0 ∨ dst = 0) (max steps : Byte) :
    bshift16 src dst max steps = ⟨src, dst, 0⟩ :=
  if_pos h

/-- `n` exact halvings against `n` shifts by `t` scale the product by what `t` exceeds 1 by (R115 (d)). -/
theorem mul_mul_two_pow_mul (s d n : Nat) {t : Nat} (ht : 1 ≤ t) :
    s * (d * 2 ^ (n * t)) = s * 2 ^ n * d * 2 ^ (n * (t - 1)) := by
  obtain ⟨u, rfl⟩ := Nat.exists_eq_add_of_le' ht
  rw [Nat.add_sub_cancel, Nat.mul_succ, Nat.pow_add]
  ring

/-- Settles O44: (a) to (c) are `bshift16_spec`, and the two products follow from its exact relations. -/
theorem bshift16Laws : Obligations.Bshift16Laws := by
  intro src dst max steps hSteps
  obtain ⟨n, hMax, hSeven, hSrc, hDst, rfl, -, -⟩ := bshift16_spec src dst max steps hSteps
  obtain ⟨hOne, hTwo⟩ : 1 ≤ steps.toNat ∧ steps.toNat ≤ 2 := by
    rcases hSteps with rfl | rfl <;> decide
  refine ⟨hDst, hSrc.symm, Nat.le_min.mpr ⟨hMax, hSeven⟩, ?bound, fun h => ?zeroInput, ?product, fun v => ?scaled⟩
  case bound =>
    calc (bshift16 src dst max steps).cnt.toNat * steps.toNat ≤ 7 * 2 := Nat.mul_le_mul hSeven hTwo
      _ ≤ 15 := by decide
  case zeroInput =>
    rw [bshift16_of_zero h]
    exact ⟨rfl, rfl, rfl⟩
  case product => rw [hDst, mul_mul_two_pow_mul _ _ _ hOne, hSrc]
  case scaled => rw [← hSrc, Nat.mul_assoc, Nat.mul_comm v]

/-- No part of the payload overlaps another (R113). -/
theorem shift16_pack_eq (p : Shift16) :
    p.pack = BitVec.ofNat 32 (p.cnt.toNat * 2 ^ 24 + p.src.toNat * 2 ^ 16 + p.dst.toNat) := by
  apply BitVec.eq_of_toNat_eq
  simp only [Shift16.pack, toNat_append_add, BitVec.toNat_ofNat]
  omega

/-- Settles O43: well-formed steps are answered, and the answer packs the three parts that `bshift16_spec` gives. -/
theorem bshift16Result : Obligations.Bshift16Result := by
  intro src dst max steps s hSteps
  obtain ⟨n, hMax, hSeven, hSrc, hDst, hCnt, hGo, hStop⟩ := bshift16_spec src dst max steps hSteps
  have hHalved : (bshift16 src dst max steps).src.toNat = src.toNat / 2 ^ n :=
    (Nat.div_eq_of_eq_mul_left (Nat.two_pow_pos n) hSrc.symm).symm
  refine ⟨n, ?_, hMax, hSeven, hHalved ▸ hSrc, hDst ▸ (bshift16 src dst max steps).dst.isLt, hGo, hStop⟩
  calc exec (.bshift16 src dst max steps) s
      = answerWith (bshift16 src dst max steps).pack s := if_pos (decide_eq_true hSteps)
    _ = _ := by
      rw [answerWith_eq, shift16_pack_eq, hCnt, hHalved, hDst]
      rfl

end Sys2Proof.Laws

/-! The pixel encoder (spec 43 R121 to R128): steps 3 and 4 in closed form, its brightness, its symmetry in the channels, and the
answers of `ENCLIN16` and `ENCPERC8`, the machine's side read off `encLin16_pixelN`. -/

namespace Sys2Proof.Laws

open Sys2Proof Sys2Proof.Machine Sys2Proof.Safety

/-! ## `ENCLIN16` and `ENCPERC8` answer in every state (44 R146) -/

/-- No part of the payload overlaps another (10 R12). -/
theorem pack_eq_packed_pixelN (d : DeviceColor) : d.pack = (pixelN d).packed := by
  apply BitVec.eq_of_toNat_eq
  simp only [DeviceColor.pack, PixelN.packed, pixelN, toNat_append_add, BitVec.toNat_setWidth, BitVec.toNat_ofNat]
  omega

/-- An encoder command answers with the colour it leaves in the latch. -/
theorem answerLatch_eq (w : Work) (s : State) :
    answerLatch w s =
      .next { s with w := w, responses := s.responses ++ [⟨.ok, (pixelN w.out).packed⟩] } := by
  rw [answerLatch, answerWith_eq, pack_eq_packed_pixelN]
  rfl

/-- Settles O45: the answer packs the latch, which holds the closed form. -/
theorem enclin16Result : Obligations.Enclin16Result := by
  intro brt r g b s
  refine ⟨encLin16 r g b brt s.w, ?_⟩
  rw [← encLin16_pixelN r g b brt s.w]
  exact answerLatch_eq _ s

/-- Settles O50: a well-formed word is answered, and its correction is the word's alone. -/
theorem encperc8Result : Obligations.Encperc8Result := by
  intro brt r g b cp cr cg cb s hLegal
  refine ⟨encPerc8 r g b brt (wordCorrection cp cr cg cb) s.w, ?_⟩
  calc exec (.encperc8 brt r g b cp cr cg cb) s
      = answerLatch (encPerc8 r g b brt (wordCorrection cp cr cg cb) s.w) s := if_pos (decide_eq_true hLegal)
    _ = _ := by
      rw [answerLatch_eq, encPerc8_pixelN]
      rfl

/-! ## Step 3 -/

/-- Every halving of 16 in step 3 is exact, so the doublings of the brightness conserve the product (43 R123). -/
theorem sixteen_div_mul_shiftOne (brt : Nat) :
    16 / 2 ^ shiftOne brt * (brt * 2 ^ shiftOne brt) = 16 * brt := by
  have hDvd : 2 ^ shiftOne brt ∣ 16 := Nat.pow_dvd_pow 2 (shiftOne_le brt)
  rw [Nat.mul_left_comm, Nat.div_mul_cancel hDvd, Nat.mul_comm]

/-- A doubled brightness is even, so step 3 leaves the odd 255 only where it made no shift (43 R123). -/
theorem mul_shiftOne_bounds {brt : Nat} (hb : brt ≠ 0) :
    16 ≤ brt * 2 ^ shiftOne brt ∧ (brt * 2 ^ shiftOne brt = 255 ↔ brt = 255) := by
  unfold shiftOne
  split_ifs <;> omega

/-- Settles O46: `encStep3_toNat`, and what its two closed forms imply. -/
theorem encoderStepThreeClosedForm : Obligations.EncoderStepThreeClosedForm := by
  intro brt w hb
  obtain ⟨hAcc, hBr⟩ := encStep3_toNat hb w
  obtain ⟨hLow, hFull⟩ := mul_shiftOne_bounds ((byte_eq_zero_iff brt).not.mp hb)
  refine ⟨hAcc, hBr, ?product, hBr ▸ hLow, ?full, rfl, rfl⟩
  case product => rw [hAcc, hBr, sixteen_div_mul_shiftOne]
  case full =>
    rw [← BitVec.toNat_inj, hBr, ← BitVec.toNat_inj]
    exact hFull

/-! ## Step 4 -/

/-- Shifts within the headroom, even taken twice over, keep the maximum in 16 bits: the last of them was checked for it
(43 R125). -/
theorem mul_two_pow_lt_of_le_headroom {m n : Nat} (hm : m < 2 ^ 16) (hn : n ≤ headroom m) : m * 2 ^ (2 * n) < 2 ^ 16 := by
  cases n with
  | zero => simpa using hm
  | succ k =>
    obtain ⟨-, hFits⟩ := lt_headroom_iff.mp hn
    rwa [Nat.mul_comm 2, Nat.succ_mul]

/-- Settles O47: `encStep4_toNat` for the accumulator and the channels, `bshift16_acc` for the count. -/
theorem encoderStepFourClosedForm : Obligations.EncoderStepFourClosedForm := by
  intro brt r g b w hb hLit v m
  have hMax : v.maxc.toNat = m := by
    change (umax r (umax g b)).toNat = _
    rw [umax_toNat, umax_toNat]
  have hNe : v.maxc ≠ 0 := by
    rw [ne_eq, half_eq_zero_iff, hMax]
    rw [ne_eq, ne_eq, ne_eq, half_eq_zero_iff, half_eq_zero_iff, half_eq_zero_iff] at hLit
    omega
  obtain ⟨-, hCnt, hRoom⟩ := bshift16_acc (shiftOne_le brt.toNat) (encStep3_toNat hb w).1 hNe
  have hSh : v.sh.toNat = shiftTwo brt.toNat m := hMax ▸ hCnt
  obtain ⟨hAcc, hRed, hGrn, hBlu⟩ := encStep4_toNat hb (by tauto) (rfl : m = _) w
  have hTwice : m * 2 ^ (2 * shiftTwo brt.toNat m) < 2 ^ 16 :=
    mul_two_pow_lt_of_le_headroom (hMax ▸ v.maxc.isLt) (Nat.min_le_right _ _)
  rw [hSh]
  exact ⟨hMax, rfl, hAcc, shiftOne_add_shiftTwo_le _ _, Nat.le_of_lt_succ hTwice, Nat.le_of_lt_succ (hMax ▸ hRoom),
    by omega, by omega, by omega, hRed, hGrn, hBlu⟩

/-! ## The result by the maximum channel -/

/-- The brightness of the result, by the operand and the maximum channel (43 R128). -/
def resultBrightness (brt m : Nat) : Nat :=
  if brt = 0 then 0 else if m = 0 then min brt 31 else 32 / 2 ^ (shiftOne brt + shiftTwo brt m) - 1

theorem channelN_zero_brightness (m x : Nat) : channelN 0 m x = 0 := by
  simp [channelN, scaleN, mapN]

theorem channelN_zero (brt m : Nat) : channelN brt m 0 = 0 := by
  simp [channelN, scaleN, mapN]

/-- Early returns included, only the maximum couples the channels: each goes through one function of it, and so does the
brightness (43 R126). -/
theorem encLinN_eq {r g b m : Nat} (brt : Nat) (hm : max r (max g b) = m) :
    encLinN r g b brt = ⟨resultBrightness brt m, channelN brt m r, channelN brt m g, channelN brt m b⟩ := by
  have hBlack : (r = 0 ∧ g = 0 ∧ b = 0) ↔ m = 0 := by omega
  unfold encLinN resultBrightness
  simp only [hBlack, hm]
  split_ifs with hb hDark
  · simp only [hb, channelN_zero_brightness]
  · obtain ⟨rfl, rfl, rfl⟩ := hBlack.mpr hDark
    simp only [channelN_zero]
  · rfl

theorem encLin16_pixelN_eq {r g b : Half} {m : Nat} (brt : Byte) (w : Work)
    (hm : max r.toNat (max g.toNat b.toNat) = m) :
    pixelN (encLin16 r g b brt w).out =
      ⟨resultBrightness brt.toNat m, channelN brt.toNat m r.toNat, channelN brt.toNat m g.toNat,
        channelN brt.toNat m b.toNat⟩ :=
  (encLin16_pixelN r g b brt w).trans (encLinN_eq _ hm)

/-- Settles O49: the maximum is symmetric, so the four results take the same brightness and send each channel through the same
function. -/
theorem encoderTreatsChannelsAlike : Obligations.EncoderTreatsChannelsAlike := by
  intro r g b brt w d e f h hd he hf hh
  obtain ⟨hBrt, hRed, hGrn, hBlu⟩ := PixelN.mk.inj (hd ▸ encLin16_pixelN_eq brt w rfl)
  have hGRB := he ▸ encLin16_pixelN_eq brt w (max_left_comm g.toNat r.toNat b.toNat)
  have hRBG := hf ▸ encLin16_pixelN_eq brt w (congrArg (max r.toNat) (max_comm b.toNat g.toNat))
  have hBGR := hh ▸ encLin16_pixelN_eq (r := b) (g := g) (b := r) brt w
    (show _ = max r.toNat (max g.toNat b.toNat) by omega)
  simp only [← pixelN_inj, hGRB, hRBG, hBGR]
  simp only [pixelN, hBrt, hRed, hGrn, hBlu, and_self]

/-! ## The brightness of the result -/

/-- Step 6 maps the five accumulators `16 >> t` to these values (43 R128). -/
theorem getElem?_filled {t : Nat} (ht : t ≤ 4) : [31, 15, 7, 3, 1][t]? = some (32 / 2 ^ t - 1) := by
  interval_cases t <;> rfl

/-- The mask of a pixel frame's byte 0 keeps a 5-bit brightness (30 R73). -/
theorem brightnessByte_setWidth (x : BitVec 5) : (brightnessByte (x.setWidth 8)).toNat = 0xE0 + x.toNat := by
  rw [brightnessByte_eq, BitVec.toNat_ofNat, BitVec.toNat_setWidth]
  omega

/-- Settles O48: the three cases of `resultBrightness`; a black colour is one whose maximum is 0. -/
theorem encoderBrightnessRange : Obligations.EncoderBrightnessRange := by
  intro r g b brt w
  have hOut : (encLin16 r g b brt w).out.brt.toNat = resultBrightness brt.toNat (max r.toNat (max g.toNat b.toNat)) :=
    congrArg PixelN.brt (encLin16_pixelN_eq brt w rfl)
  simp only [ne_eq, half_eq_zero_iff]
  refine ⟨fun hb => ?zero, fun hb hr hg hbl => ?black, fun hb hLit => ?lit, brightnessByte_setWidth _⟩
  case zero =>
    apply BitVec.eq_of_toNat_eq
    rw [hOut, hb]
    rfl
  case black =>
    have hNe : brt.toNat ≠ 0 := (byte_eq_zero_iff brt).not.mp hb
    have hSat : (encLin16 r g b brt w).out.brt.toNat = min brt.toNat 31 := by
      rw [hOut, resultBrightness, if_neg hNe, if_pos (by omega)]
    refine ⟨hSat, ?_⟩
    rw [BitVec.le_def, hSat, show (1 : BitVec 5).toNat = 1 from rfl]
    omega
  case lit =>
    have hColour : ¬ (r = 0 ∧ g = 0 ∧ b = 0) := by
      simp only [half_eq_zero_iff]
      omega
    refine ⟨_, (encStep4_toNat hb hColour rfl w).1, ?_⟩
    rw [getElem?_filled (shiftOne_add_shiftTwo_le _ _), hOut, resultBrightness,
      if_neg ((byte_eq_zero_iff brt).not.mp hb), if_neg (by omega)]

end Sys2Proof.Laws

/-! Frame commands on the port (spec 44 R140 to R152): which are refused, discarded or out of count, what each does
when every beat is answered `OK`, and what a whole frame write presents. -/

namespace Sys2Proof.Laws

open Sys2Proof Sys2Proof.Machine Sys2Proof.Safety

/-! ## Refused and discarded (44 R146, R147) -/

/-- Every pixel command goes through the admission table and the counter check (44 R140). -/
theorem exec_of_isPixel {i : Instr} (hi : isPixel i = true) :
    ∃ body, ∀ s, exec i s = ifAdmitted .pixelCmd s fun s => ifCountable s body := by
  cases i with
  | pixdev brt r g b => exact ⟨_, fun _ => rfl⟩
  | pixlin16 brt r g b => exact ⟨fun s => emitLatch { s with w := encLin16 r g b brt s.w }, fun _ => rfl⟩
  | pixperc8 brt r g b =>
    exact ⟨fun s => emitLatch { s with w := encPerc8 r g b brt (registerCorrection s) s.w }, fun _ => rfl⟩
  | _ => cases hi

/-- The table has one row for `END` and the pixel commands. -/
theorem admission_endCmd (q : SeqState) : admission .endCmd q = admission .pixelCmd q := by cases q <;> rfl

/-- A pixel command or `END` that is not admitted ends with the table's entry. -/
theorem exec_of_not_admitted {i : Instr} {s : State} {x : Exn} (hi : isPixel i = true ∨ i = .endFrame)
    (hx : admission .pixelCmd s.st = some x) : exec i s = .next (raise x s) := by
  rcases hi with hi | rfl
  · obtain ⟨body, hBody⟩ := exec_of_isPixel hi
    rw [hBody, ifAdmitted_of_some hx]
  · rw [exec, execEnd, ifAdmitted_of_some ((admission_endCmd s.st).trans hx)]

/-- Settles O27: in both states the table's entry is `PROTO`. -/
theorem frameCommandsRefusedOutsideFrameWrite : Obligations.FrameCommandsRefusedOutsideFrameWrite := by
  intro i s hi hs
  have hRow : admission .pixelCmd s.st = some .proto := by rcases hs with hs | hs <;> rw [hs] <;> rfl
  exact exec_of_not_admitted hi hRow

/-- Settles O28: the table's entry is `FLUSHED`, which sets no flag. -/
theorem frameCommandsFlushedWhenAborted : Obligations.FrameCommandsFlushedWhenAborted := fun _ _ hi hs =>
  exec_of_not_admitted (x := .flushed) hi (by rw [hs]; rfl)

/-- Settles O29: the table admits the command and the counter check refuses it. -/
theorem pixelRefusedAtCountMaximum : Obligations.PixelRefusedAtCountMaximum := by
  intro i s hi hs hn
  have hMax : s.n = 0xFFFFFFFF := BitVec.eq_of_toNat_eq hn
  obtain ⟨body, hBody⟩ := exec_of_isPixel hi
  rw [hBody, ifAdmitted_of_none (by rw [hs]; rfl), ifCountable, if_pos hMax]
  rfl

/-! ## A segment answered `OK` -/

/-- A byte answered `OK` is recorded, and the command goes on (20 R46). -/
theorem txByte_answered_ok {s : State} {rest : List Answer} (ha : s.answers = .ok :: rest) (b : Byte) (last : Bool) :
    txByte b last s = .go { s with tx := s.tx ++ [⟨b, last, .ok⟩], answers := rest } := by
  rw [txByte, nextAnswer, ha]
  simp [present, ha]

/-- Beyond what `runs_txBytes` says of them, the bytes of a segment leave the end-frame counter alone. -/
theorem txBytes_answered_ok (bs : List Byte) {s : State} {rest : List Answer}
    (ha : s.answers = List.replicate bs.length .ok ++ rest) :
    ∃ bi, txBytes bs s = .go (sent s (okBeats (seg bs)) rest bi s.ec) := by
  induction bs generalizing s with
  | nil =>
    obtain rfl : s.answers = rest := ha
    exact ⟨s.bi, by simp [txBytes, seg, okBeats, sent]⟩
  | cons b bs ih =>
    rw [txBytes, txByte_answered_ok ha b bs.isEmpty]
    obtain ⟨bi, hGo⟩ := ih (s := { s with
      tx := s.tx ++ [⟨b, bs.isEmpty, .ok⟩], answers := List.replicate bs.length .ok ++ rest, bi := s.bi + 1 }) rfl
    refine ⟨bi, hGo.trans ?_⟩
    simp [sent, seg, okBeats, answered]

theorem txSeg_answered_ok {bs : List Byte} {s : State} {rest : List Answer}
    (ha : s.answers = List.replicate bs.length .ok ++ rest) :
    ∃ bi, txSeg bs s = .go (sent s (okBeats (seg bs)) rest bi s.ec) :=
  txBytes_answered_ok bs (s := { s with bi := 0 }) ha

/-! ## Each frame command completed -/

/-- Settles O52: the start frame is one segment of four zero bytes. -/
theorem beginCompletes : Obligations.BeginCompletes := by
  intro s rest ha
  obtain ⟨bi, hGo⟩ := txSeg_answered_ok (bs := zeroFrame) (s := { s with n := 0 }) ha
  refine ⟨bi, ?_⟩
  rw [exec, execBegin, ifAdmitted_of_none rfl, hGo]
  rfl

/-- `s` once `k` pixels, whose frames are the beats `ps`, are presented, counted and answered. -/
def pixelsWritten (s : State) (k : Nat) (ps : List (Byte × Bool)) (rest : List Answer) (bi : Nat) (fb : FrameBuf) :
    State :=
  { s with
    n := s.n + BitVec.ofNat 32 k
    bi := bi
    fb := fb
    answers := rest
    responses := s.responses ++ List.replicate k ⟨.ok, 0⟩
    tx := s.tx ++ okBeats ps }

theorem pixelsWritten_pixelsWritten (s : State) (j k : Nat) (ps qs : List (Byte × Bool)) (rest rest' : List Answer)
    (bi bi' : Nat) (fb fb' : FrameBuf) :
    pixelsWritten (pixelsWritten s j ps rest bi fb) k qs rest' bi' fb' =
      pixelsWritten s (j + k) (ps ++ qs) rest' bi' fb' := by
  simp [pixelsWritten, BitVec.ofNat_add, BitVec.add_assoc]

/-- `EmitPixel`, its four beats answered `OK` (44 R148). -/
theorem emitPixel_completes {s : State} {rest : List Answer} (hOrder : s.cfg0.toNat % 8 ≤ 5)
    (ha : s.answers = List.replicate 4 .ok ++ rest) (brt r g b : Byte) :
    ∃ (bi : Nat) (fb : FrameBuf), emitPixel brt r g b s =
      .next (pixelsWritten s 1 (seg (pixelBytes s.cfg0 brt r g b)) rest bi fb) := by
  obtain ⟨fb, hFrame⟩ := pixelFrame_exists_some hOrder brt r g b
  obtain ⟨bi, hGo⟩ := txSeg_answered_ok (bs := fb.bytes) (s := { s with fb := fb }) ha
  refine ⟨bi, fb, ?_⟩
  rw [emitPixel_of_some hFrame, hGo, pixelFrame_bytes hFrame]
  rfl

/-- `EmitPixel` of a latch that holds the colour `p` (44 R143, R144). -/
theorem emitLatch_completes {s : State} {rest : List Answer} {w : Work} {p : PixelN} (hOrder : s.cfg0.toNat % 8 ≤ 5)
    (ha : s.answers = List.replicate 4 .ok ++ rest) (hw : pixelN w.out = p) :
    ∃ (bi : Nat) (fb : FrameBuf), emitLatch { s with w := w } =
      .next (pixelsWritten { s with w := w } 1 (seg (pixelBytesN s.cfg0 p)) rest bi fb) := by
  rw [← hw, ← pixelBytes_latch]
  exact emitPixel_completes (s := { s with w := w }) hOrder ha _ _ _ _

/-- Settles O53: past the table and the counter check `PIXDEV` is `EmitPixel`. -/
theorem pixdevCompletes : Obligations.PixdevCompletes := by
  rintro brt r g b s rest ⟨-, hOrder, -⟩ hs hn ha
  rw [exec, execPixdev, pixelAdmitted_eq hs hn]
  exact emitPixel_completes hOrder ha brt r g b

/-- Settles O54: the latch holds the encoder's closed form. -/
theorem pixlin16Completes : Obligations.Pixlin16Completes := by
  rintro brt r g b s rest ⟨-, hOrder, -⟩ hs hn ha
  rw [exec, execPixlin16, pixelAdmitted_eq hs hn]
  exact ⟨_, emitLatch_completes hOrder ha (encLin16_pixelN r g b brt s.w)⟩

/-- Settles O55: the latch holds the perceptual encoder's closed form, and the correction is the registers'. -/
theorem pixperc8Completes : Obligations.Pixperc8Completes := by
  rintro brt r g b s rest ⟨-, hOrder, -⟩ hs hn ha
  rw [exec, execPixperc8, pixelAdmitted_eq hs hn, ← registerCorrection_eq]
  exact ⟨_, emitLatch_completes hOrder ha (encPerc8_pixelN r g b brt (registerCorrection s) s.w)⟩

/-- Settles O57: `END` is one run of its planned beats, which starts from `s` itself. -/
theorem endCompletes : Obligations.EndCompletes := by
  intro s rest hs ha
  obtain ⟨f, hRuns, hEnd⟩ := end_runs s
  replace hRuns : Runs f (planned .endFrame s) := presents_endFrame s ▸ hRuns
  obtain ⟨bi, ec, hGo⟩ := hRuns.ok s rest ha
  refine ⟨bi, ec, ?_⟩
  rw [exec, execEnd, ifAdmitted_of_none (by rw [hs]; rfl), hEnd, hGo]
  rfl

/-! ## `PIXLIN16` against `PIXDEV` (44 R143)

`EmitPixel` is blind to the working registers alone; the hidden registers `FB`, `BI` and `EC` stay seen. -/

theorem blind_hideWork_txBytes : ∀ bs : List Byte, Blind hideWork (flowThrough hideWork) (txBytes bs)
  | [] => blind_go
  | b :: bs => by
    have hByte : Blind hideWork (flowThrough hideWork) (txByte b bs.isEmpty) := blind_of_eq fun s => by
      rw [txByte, txByte, show nextAnswer (hideWork s) = nextAnswer s from rfl]
      cases nextAnswer s <;> rfl
    exact hByte.andThen ((blind_hideWork_txBytes bs).comp (u := fun t => { t with bi := t.bi + 1 })
      (blind_of_eq fun _ => rfl))

/-- `EmitPixel` takes its pixel from its operands, never from the working registers. -/
theorem emitPixel_setWork (brt r g b : Byte) (s : State) (w : Work) :
    through hideWork (emitPixel brt r g b { s with w := w }) = through hideWork (emitPixel brt r g b s) := by
  cases hFrame : pixelFrame s.cfg0 brt r g b with
  | none => rw [emitPixel_of_none hFrame, emitPixel_of_none (s := { s with w := w }) hFrame]
  | some fr =>
    rw [emitPixel_of_some hFrame, emitPixel_of_some (s := { s with w := w }) hFrame]
    have hCount : Blind hideWork hideWork (fun t => respond .ok 0 { t with n := t.n + 1 }) := blind_of_eq fun _ => rfl
    exact ((blind_hideWork_txBytes fr.bytes).finish hCount).next _ _ rfl

/-- The table and the counter check treat all pixel commands alike (44 R146, R147). -/
theorem through_pixelAdmitted_congr {f : State → State} {s : State}
    {body body' : State → Host.Outcome State Fault Refusal} (h : through f (body s) = through f (body' s)) :
    through f (ifAdmitted .pixelCmd s fun s => ifCountable s body) =
      through f (ifAdmitted .pixelCmd s fun s => ifCountable s body') := by
  cases hx : admission .pixelCmd s.st with
  | some x => rw [ifAdmitted_of_some hx, ifAdmitted_of_some hx]
  | none =>
    rw [ifAdmitted_of_none hx, ifAdmitted_of_none hx, ifCountable, ifCountable]
    split
    · rfl
    · exact h

/-- The four bytes of a packed colour are its brightness and its channels (10 R12). -/
theorem pack_bytes (d : DeviceColor) :
    d.pack.extractLsb' 24 8 = d.brt.setWidth 8 ∧ d.pack.extractLsb' 16 8 = d.red ∧
      d.pack.extractLsb' 8 8 = d.grn ∧ d.pack.extractLsb' 0 8 = d.blu := by
  simp only [← BitVec.toNat_inj, BitVec.extractLsb'_toNat, DeviceColor.pack, toNat_append_add, BitVec.toNat_setWidth,
    Nat.shiftRight_eq_div_pow]
  omega

/-- Settles O56: the payload packs the latch that `PIXLIN16` emits. -/
theorem pixlin16IsPixdevOfEnclin16 : Obligations.Pixlin16IsPixdevOfEnclin16 := by
  intro brt r g b s t p hEnc hResponse
  obtain rfl : (encLin16 r g b brt s.w).out.pack = p := by
    have hAnswer : exec (.enclin16 brt r g b) s =
        .next (respond .ok (encLin16 r g b brt s.w).out.pack { s with w := encLin16 r g b brt s.w }) :=
      answerWith_eq _ _
    rw [hAnswer] at hEnc
    cases hEnc
    simpa using hResponse
  obtain ⟨hBrt, hRed, hGrn, hBlu⟩ := pack_bytes (encLin16 r g b brt s.w).out
  rw [hBrt, hRed, hGrn, hBlu]
  exact through_pixelAdmitted_congr (body := fun s => emitLatch { s with w := encLin16 r g b brt s.w })
    (emitPixel_setWork _ _ _ _ s _)

/-! ## A whole frame write (44 R150) -/

theorem execAll_append (is js : List Instr) (s : State) : execAll (is ++ js) s = (execAll is s).bind (execAll js) := by
  induction is generalizing s with
  | nil => rfl
  | cons i is ih =>
    simp only [List.cons_append, execAll]
    cases exec i s with
    | next t => exact ih t
    | fault r => rfl
    | refused r => rfl

/-- The command of a converted pixel (brt, red, grn, blu). -/
def pixelCommand (p : Byte × Byte × Byte × Byte) : Instr := .pixdev p.1 p.2.1 p.2.2.1 p.2.2.2

/-- The frame of a converted pixel. -/
def frameOf (cfg0 : Word) (p : Byte × Byte × Byte × Byte) : List (Byte × Bool) :=
  seg (pixelBytes cfg0 p.1 p.2.1 p.2.2.1 p.2.2.2)

theorem frameWrite_eq (px : List (Byte × Byte × Byte × Byte)) :
    frameWrite px = [.beginFrame] ++ (px.map pixelCommand ++ [.endFrame]) := rfl

theorem frameBeats_eq (s : State) (px : List (Byte × Byte × Byte × Byte)) :
    frameBeats s px = zeros ++ (px.flatMap (frameOf s.cfg0) ++ endBeats s px.length) := List.append_assoc ..

theorem seg_length (bs : List Byte) : (seg bs).length = bs.length := by
  induction bs with
  | nil => rfl
  | cons b bs ih => exact congrArg (· + 1) ih

/-- A pixel frame has four bytes under every channel order that can occur (30 R71, R72). -/
theorem frameOf_length {cfg0 : Word} (hOrder : cfg0.toNat % 8 ≤ 5) (p : Byte × Byte × Byte × Byte) :
    (frameOf cfg0 p).length = 4 := by
  obtain ⟨fb, hFrame⟩ := pixelFrame_exists_some hOrder p.1 p.2.1 p.2.2.1 p.2.2.2
  rw [frameOf, seg_length, ← pixelFrame_bytes hFrame]
  rfl

theorem pixelFrames_length {cfg0 : Word} (hOrder : cfg0.toNat % 8 ≤ 5) (px : List (Byte × Byte × Byte × Byte)) :
    (px.flatMap (frameOf cfg0)).length = 4 * px.length := by
  induction px with
  | nil => rfl
  | cons p px ih =>
    rw [List.flatMap_cons, List.length_append, frameOf_length hOrder, ih, List.length_cons, Nat.mul_succ, Nat.add_comm]

theorem endBeats_length (s : State) (n : Nat) :
    (endBeats s n).length = (if resetEn s.cfg0 then 4 else 0) + endCount s n := by
  rw [endBeats, List.length_append, seg_length, List.length_replicate]
  simp only [resetEn, getLsbD_iff]
  split <;> rfl

/-- A frame write's length (44 R150). -/
theorem frameBeats_length {s : State} (hOrder : s.cfg0.toNat % 8 ≤ 5) (px : List (Byte × Byte × Byte × Byte)) :
    (frameBeats s px).length =
      4 + 4 * px.length + (if resetEn s.cfg0 then 4 else 0) + endCount s px.length := by
  rw [frameBeats_eq, List.length_append, List.length_append, pixelFrames_length hOrder, endBeats_length,
    show zeros.length = 4 from rfl, Nat.add_assoc, Nat.add_assoc]

/-- `s` once `BEGIN` has completed (44 R141). -/
def frameBegun (s : State) (rest : List Answer) (bi : Nat) : State :=
  { s with
    st := .framing
    n := 0
    bi := bi
    answers := rest
    responses := s.responses ++ [⟨.ok, 0⟩]
    tx := s.tx ++ okBeats zeros }

/-- The pixels of a frame write, in order, from any count that leaves room for them. -/
theorem execAll_pixels (px : List (Byte × Byte × Byte × Byte)) {s : State} {rest : List Answer} (hRegs : RegsLegal s)
    (hs : s.st = .framing) (hRoom : s.n.toNat + px.length < 2 ^ 32)
    (ha : s.answers = List.replicate (px.flatMap (frameOf s.cfg0)).length .ok ++ rest) :
    ∃ (bi : Nat) (fb : FrameBuf), execAll (px.map pixelCommand) s =
      some (pixelsWritten s px.length (px.flatMap (frameOf s.cfg0)) rest bi fb) := by
  induction px generalizing s with
  | nil =>
    obtain rfl : s.answers = rest := ha
    exact ⟨s.bi, s.fb, by simp [execAll, pixelsWritten, okBeats]⟩
  | cons p px ih =>
    have ⟨_, hOrder, _⟩ := hRegs
    rw [List.length_cons] at hRoom
    have hn : s.n ≠ 0xFFFFFFFF := fun h => by
      rw [h, show (0xFFFFFFFF : Word).toNat = 2 ^ 32 - 1 from rfl] at hRoom
      omega
    rw [List.flatMap_cons, List.length_append, List.replicate_add, List.append_assoc, frameOf_length hOrder] at ha
    generalize hAs : List.replicate (px.flatMap (frameOf s.cfg0)).length .ok ++ rest = as at ha
    obtain ⟨bi, fb, hPixel⟩ := pixdevCompletes p.1 p.2.1 p.2.2.1 p.2.2.2 s as hRegs hs hn ha
    have hRoom' : (s.n + 1).toNat + px.length < 2 ^ 32 := by
      rw [count_add_one hn]
      omega
    obtain ⟨bi', fb', hPixels⟩ := ih (s := pixelsWritten s 1 (frameOf s.cfg0 p) as bi fb) hRegs hs hRoom' hAs.symm
    refine ⟨bi', fb', ?_⟩
    rw [List.map_cons, execAll, pixelCommand, hPixel]
    refine hPixels.trans ?_
    rw [pixelsWritten_pixelsWritten, Nat.add_comm 1]
    rfl

/-- `END` then finds the configuration `BEGIN` found, and the pixels' number as its count (44 R149). -/
theorem endBeats_pixelsWritten (s : State) {k : Nat} (hk : k < 2 ^ 32) (ps : List (Byte × Bool))
    (rest rest' : List Answer) (bi bi' : Nat) (fb : FrameBuf) :
    endBeats (pixelsWritten (frameBegun s rest bi) k ps rest' bi' fb)
      (pixelsWritten (frameBegun s rest bi) k ps rest' bi' fb).n.toNat = endBeats s k := by
  have hCount : (0 + BitVec.ofNat 32 k : Word).toNat = k := by simpa using hk
  exact congrArg (endBeats s) hCount

/-- Settles O60: `beginCompletes`, then the pixels by induction from count 0, then `endCompletes`. -/
theorem wholeFrameWrite : Obligations.WholeFrameWrite := by
  intro s px hRegs hLength
  have ⟨_, hOrder, _⟩ := hRegs
  refine ⟨frameBeats_length hOrder px, fun rest ha => ?_⟩
  rw [frameBeats_eq, List.length_append, List.length_append, List.replicate_add, List.replicate_add,
    List.append_assoc, List.append_assoc] at ha
  generalize hEndAs : List.replicate (endBeats s px.length).length .ok ++ rest = endAs at ha
  generalize hPixelAs : List.replicate (px.flatMap (frameOf s.cfg0)).length .ok ++ endAs = pixelAs at ha
  have hRoom : (0 : Word).toNat + px.length < 2 ^ 32 := by simpa using hLength
  obtain ⟨bi, hBegin⟩ := beginCompletes s pixelAs ha
  obtain ⟨bi', fb, hPixels⟩ := execAll_pixels px (s := frameBegun s pixelAs bi) hRegs rfl hRoom hPixelAs.symm
  have hBeats := endBeats_pixelsWritten s hLength (px.flatMap (frameOf s.cfg0)) pixelAs endAs bi bi' fb
  obtain ⟨bi'', ec, hEnd⟩ := endCompletes
    (pixelsWritten (frameBegun s pixelAs bi) px.length (px.flatMap (frameOf s.cfg0)) endAs bi' fb) rest rfl
    (by rw [hBeats]; exact hEndAs.symm)
  have hResponses (x : Response) : List.replicate (px.length + 2) x = x :: (List.replicate px.length x ++ [x]) := by
    rw [List.replicate_succ, List.replicate_succ']
  refine ⟨bi'', ec, fb, ?_⟩
  calc execAll (frameWrite px) s
      = execAll (px.map pixelCommand ++ [.endFrame]) (frameBegun s pixelAs bi) := by
        rw [frameWrite_eq, execAll_append, execAll, hBegin]
        rfl
    _ = execAll [.endFrame]
          (pixelsWritten (frameBegun s pixelAs bi) px.length (px.flatMap (frameOf s.cfg0)) endAs bi' fb) := by
        rw [execAll_append, hPixels]
        rfl
    _ = _ := by
      rw [execAll, hEnd, hBeats, hResponses]
      simp [execAll, pixelsWritten, frameBegun, frameBeats_eq]

end Sys2Proof.Laws

/-! Register access (spec 45 R170 to R172): what a `CFGWR` that is let through writes, and what `CFGRD` of an index that
names a register reads. -/

namespace Sys2Proof.Laws

open Sys2Proof Sys2Proof.Machine

/-- The table refuses `CFGWR` in `FRAMING` only (44 R146). -/
theorem admission_cfgwrCmd_eq_none {q : SeqState} (h : q ≠ .framing) : admission .cfgwrCmd q = none := by
  cases q with
  | framing => exact absurd rfl h
  | _ => rfl

/-- Past its checks and the table, `CFGWR` is one register write (45 R171). -/
theorem exec_cfgwr_of_legal {idx : BitVec 4} {val : Word} {s : State} (hLegal : cfgwrLegal idx val = true)
    (hs : s.st ≠ .framing) : exec (.cfgwr idx val) s = .next (respond .ok 0 (regWrite idx val s)) := by
  rw [exec, execCfgwr, if_pos hLegal, ifAdmitted_of_none (admission_cfgwrCmd_eq_none hs)]

/-- An index that reads as `v` is answered with `v`, in every sequencer state (45 R172, 44 R146). -/
theorem exec_cfgrd_of_regRead {idx : BitVec 4} {v : Word} {s : State} (h : regRead idx s = some v) :
    exec (.cfgrd idx) s = .next (respond .ok v s) := by
  simp only [exec, execCfgrd, h]
  exact ifAdmitted_of_none rfl

/-- Settles O32: the four values are the four cases of `cfgwrLegal_iff`. -/
theorem cfgwrWritesRegister : Obligations.CfgwrWritesRegister := by
  intro val s hs
  have write {idx : BitVec 4} (h : (idx = 0 ∧ val.toNat < 256 ∧ val.toNat % 8 ≤ 5) ∨ idx = 1 ∨ idx = 2 ∨
      (idx = 3 ∧ val.toNat < 2 ^ 24)) : exec (.cfgwr idx val) s = .next (respond .ok 0 (regWrite idx val s)) :=
    exec_cfgwr_of_legal ((cfgwrLegal_iff idx val).mpr h) hs
  exact ⟨fun hByte hOrder => write (.inl ⟨rfl, hByte, hOrder⟩), write (.inr (.inl rfl)),
    write (.inr (.inr (.inl rfl))), fun hCorr => write (.inr (.inr (.inr ⟨rfl, hCorr⟩)))⟩

/-- Settles O33: each index reads its register, `ERR_CODE` through `errBits` (10 R23). -/
theorem cfgrdReadsRegister : Obligations.CfgrdReadsRegister := fun s =>
  ⟨exec_cfgrd_of_regRead (v := s.cfg0) rfl, exec_cfgrd_of_regRead (v := s.endCount) rfl,
    exec_cfgrd_of_regRead (v := s.ledCount) rfl, exec_cfgrd_of_regRead (v := s.corr) rfl,
    exec_cfgrd_of_regRead (v := statusWord s) rfl, exec_cfgrd_of_regRead (v := errBits s.errCode) rfl,
    exec_cfgrd_of_regRead (v := s.n) rfl⟩

end Sys2Proof.Laws

/-! The exceptions (spec 60): `ABORTED` is left only by `BEGIN` or reset (R191), and what a transport error leaves (R183). -/

namespace Sys2Proof.Laws

open Sys2Proof.Machine Sys2Proof.Safety

/-- Outside `FRAMING` the one frame command that executes is `BEGIN` (44 R146). -/
theorem eq_beginFrame_of_executes {i : Instr} {s : State} (h : Executes i s) (hs : s.st ≠ .framing) : i = .beginFrame := by
  rcases h with rfl | ⟨-, hFraming, -⟩ | ⟨-, hFraming⟩
  · rfl
  · exact absurd hFraming hs
  · exact absurd hFraming hs

/-- Settles O20: of a command's effects only those of one that executes move the sequencer, and out of `ABORTED` that is
`BEGIN`. -/
theorem abortedLeftOnlyByBeginOrReset : Obligations.AbortedLeftOnlyByBeginOrReset := by
  intro s t hs h ht
  rcases step_cases h with ⟨-, rfl⟩ | ⟨rest, hHost, -⟩ | ⟨c, rest, e, -, -, rfl⟩ | ⟨c, rest, i, hHost, -, hDecode, he⟩
  · exact absurd hs ht
  · exact .inl (congrArg List.head? hHost)
  · exact absurd hs ht
  · rcases effect_sequencer (exec_effect he) with ⟨-, hSt, -⟩ | ⟨hx, -⟩
    · exact absurd (hSt.trans hs) ht
    · have hFraming : s.st ≠ .framing := by simp [hs]
      obtain rfl : i = .beginFrame := eq_beginFrame_of_executes hx hFraming
      exact .inr ⟨c, congrArg List.head? hHost, hDecode⟩

/-- Settles O58: the run halts in `failed` at the beat answered `ERR`, before the command's last lines, and the code is
taken through `errBits`. -/
theorem transportErrorAborts : Obligations.TransportErrorAborts := by
  rintro i s k e p rest ⟨-, hOrder, -⟩ hx hp ha
  obtain ⟨w, fb, f, hRuns, hExec⟩ := exec_runsPlanned hOrder hx
  obtain ⟨bi, ec, hHalt⟩ := hRuns.err (started i s w fb) k e p rest hp ha
  refine ⟨errBits e, w, bi, ec, fb, errBits_toNat e, errBits_of_lt, ?_⟩
  rw [hExec, hHalt, List.append_assoc]
  rfl

end Sys2Proof.Laws

/-! Reset and hazards (spec 70): which step can change a configuration register (R213), and what a reset leaves (R200, R201). -/

namespace Sys2Proof.Laws

open Sys2Proof Sys2Proof.Machine Sys2Proof.Safety

/-! ## The configuration (70 R213, 20 R53) -/

/-- `t` has the four configuration registers of `s`. -/
def ConfigKept (s t : State) : Prop :=
  t.cfg0 = s.cfg0 ∧ t.endCount = s.endCount ∧ t.ledCount = s.ledCount ∧ t.corr = s.corr

theorem configKept_refl (s : State) : ConfigKept s s := ⟨rfl, rfl, rfl, rfl⟩

theorem configKept_raise (x : Exn) (s : State) : ConfigKept s (raise x s) :=
  ⟨raise_cfg0 x s, raise_endCount x s, raise_ledCount x s, raise_corr x s⟩

theorem configKept_completed (i : Instr) (s : State) : ConfigKept s (completed i s) := by
  cases i <;> exact configKept_refl s

/-- Of a command's effects only the write of a `CFGWR` reaches the configuration, and only outside `FRAMING`. -/
theorem effect_config {i : Instr} {s t : State} (h : Effect i s t) :
    ConfigKept s t ∨ (s.st ≠ .framing ∧ isCfgwr i = true) := by
  cases h with
  | refused x => exact .inl (configKept_raise x s)
  | replied p w => exact .inl (configKept_refl s)
  | wrote idx val hi _ hs => exact .inr ⟨hs, by rw [hi]; rfl⟩
  | done w fb rest bi ec => exact .inl (configKept_completed i (sent (started i s w fb) _ rest bi ec))
  | aborted w fb k e p rest bi ec => exact .inl (configKept_raise (.xerr e) (sent (started i s w fb) _ rest bi ec))
  | silent w fb k p rest bi ec => exact .inl (configKept_refl s)

/-- Settles O23: without reset a step is idle, a refusal, or an effect of a command, for which `effect_config` decides. -/
theorem configChangedOnlyByCfgwrOrReset : Obligations.ConfigChangedOnlyByCfgwrOrReset := by
  intro s t h hChange
  have hMoved : ¬ ConfigKept s t := by
    rintro ⟨hCfg0, hEnd, hLed, hCorr⟩
    simp [hCfg0, hEnd, hLed, hCorr] at hChange
  rcases step_cases h with ⟨-, rfl⟩ | ⟨rest, hHost, -⟩ | ⟨c, rest, e, -, -, rfl⟩ | ⟨c, rest, i, hHost, -, hDecode, he⟩
  · exact absurd (configKept_refl t) hMoved
  · exact .inl (congrArg List.head? hHost)
  · exact absurd (configKept_raise .illegal { s with host := rest }) hMoved
  · rcases effect_config (exec_effect he) with hKept | ⟨hs, hi⟩
    · exact absurd hKept hMoved
    · exact .inr ⟨hs, i, hi, c, congrArg List.head? hHost, hDecode⟩

/-- Settles O30: the value passes the checks of `CFGWR`, and the table's entry in `FRAMING` is `PROTO`. -/
theorem cfgwrRefusedDuringFrameWrite : Obligations.CfgwrRefusedDuringFrameWrite := by
  intro idx val s hWell hs
  have hRow : admission .cfgwrCmd s.st = some .proto := by rw [hs]; rfl
  rw [exec, execCfgwr, if_pos (by rw [cfgwrLegal_eq, hWell]), ifAdmitted_of_some hRow, raise_proto]

/-! ## Reset (70 R200, R201) -/

/-- Reset acts whether or not a beat is unanswered (70 R201, R214). -/
theorem step_of_reset {s : State} {rest : List HostEvent} (h : s.host = .reset :: rest) :
    step s = .next (resetEvent { s with host := rest }) := by
  have hFetch : fetch s = .reset (resetEvent { s with host := rest }) := by simp [fetch, takeEvent, h]
  rw [step, hFetch]

/-- A reset clears the four sticky flags and leaves `IDLE`, whose code is 0 (10 R13, R22). -/
theorem statusWord_resetEvent (s : State) : statusWord (resetEvent s) = 0 := by
  have hReset : statusWord (resetEvent s) = statusWord State.reset := rfl
  rw [hReset]
  rfl

/-- Settles O9: `resetEvent` takes every register from `State.reset`, and the records and inputs from the state it acts on. -/
theorem resetFromEveryState : Obligations.ResetFromEveryState := fun _ _ h =>
  ⟨_, step_of_reset h, rfl, rfl, rfl, rfl, rfl, rfl, statusWord_resetEvent _, rfl, rfl, rfl, rfl, rfl, rfl⟩

end Sys2Proof.Laws
